-- ==== Sys2Proof/Word.lean ====
section
/-! DEFINITION. The word types of chip8 CORE (spec/00_scope.md R7, R8): bits are numbered from 0 at the
least significant end, and every value is unsigned. -/

namespace Sys2Proof

/-- A byte: a general register, a timer, a memory cell, the immediate `kk`. -/
abbrev Byte := BitVec 8

/-- A 16-bit word: an opcode, `I`, `PC`, a return address, the keypad vector. -/
abbrev Word := BitVec 16

/-- The 12-bit immediate `nnn`. -/
abbrev Addr12 := BitVec 12

/-- A register number `0..15`, written by a 4-bit field; every value names a register (R10, R63). -/
abbrev Reg := Fin 16

end Sys2Proof
end

