-- ==== Sys2Proof/Config.lean ====
section
/-! DEFINITION. What is fixed for the machine: the sizes of spec/00_scope.md R7, the parameter `FONT` with
its default table (spec/20_memory.md R42), and the free value `RND` (spec/10_state.md R22). -/

namespace Sys2Proof.Config

/-- The highest address of `MEM` (R40). -/
abbrev lastAddress : Nat := 0xFFF

/-- `STACK_DEPTH` (R7, R15). -/
abbrev stackDepth : Nat := 16

/-- `PROG_BASE`: where LOAD puts a program and sets `PC` (R7, R192). -/
abbrev progBase : Nat := 0x200

/-- `PROG_MAX`: the largest program in bytes (R7, R193). -/
abbrev progMax : Nat := 3584

/-- `FONT_LEN`: sixteen glyphs of five bytes (R7, R42). -/
abbrev fontLen : Nat := 80

/-- `GLYPH_LEN` (R7): Fx29 multiplies by it. -/
abbrev glyphLen : Nat := 5

/-- Glyphs 0 to 7 of the default `FONT` (R42). PRESUMED: the spec marks these bytes as general knowledge
(D3, G2); unsafe, log 5. -/
def fontLow : List Byte :=
  [0xF0, 0x90, 0x90, 0x90, 0xF0, 0x20, 0x60, 0x20, 0x20, 0x70,
   0xF0, 0x10, 0xF0, 0x80, 0xF0, 0xF0, 0x10, 0xF0, 0x10, 0xF0,
   0x90, 0x90, 0xF0, 0x10, 0x10, 0xF0, 0x80, 0xF0, 0x10, 0xF0,
   0xF0, 0x80, 0xF0, 0x90, 0xF0, 0xF0, 0x10, 0x20, 0x40, 0x40]

/-- Glyphs 8 to F of the default `FONT` (R42). PRESUMED, unsafe, log 5. -/
def fontHigh : List Byte :=
  [0xF0, 0x90, 0xF0, 0x90, 0xF0, 0xF0, 0x90, 0xF0, 0x10, 0xF0,
   0xF0, 0x90, 0xF0, 0x90, 0x90, 0xE0, 0x90, 0xE0, 0x90, 0xE0,
   0xF0, 0x80, 0x80, 0x80, 0xF0, 0xE0, 0x90, 0x90, 0x90, 0xE0,
   0xF0, 0x80, 0xF0, 0x80, 0xF0, 0xF0, 0x80, 0xF0, 0x80, 0x80]

/-- The bytes of the default `FONT` in order (R42). PRESUMED, unsafe, log 5. -/
def font : List Byte := fontLow ++ fontHigh

/-- A value of the parameter `FONT[0..79]` (R7, R42, D3): what RESET puts at the addresses 0 to 79. It is an argument
of every operation that resets; log 5. -/
abbrev Font := Vector Byte fontLen

/-- The default value of the parameter `FONT` (R42). -/
def defaultFont : Font := ⟨font.toArray, rfl⟩

/-- The free value `RND` (R22, R178, D19): the byte the k-th draw answers when the host has supplied none.
It has no body, so nothing can be proved of its value; log 3. -/
opaque rnd : Nat → Byte

end Sys2Proof.Config
end

