-- ==== Sys2Proof/Syntax.lean ====
section
/-! DEFINITION. The whole syntax of chip8 CORE: one constructor of `Instr` per row of spec/opcode_table.json
(34 rows, spec/30_encoding.md R64), and the opcode map itself as data. -/

namespace Sys2Proof

/-- An instruction with its operands. The register fields are numbers `0..15`, `kk` a byte, `nnn` twelve
bits, `n` a row count `0..15`; every value of every field is legal (R61, R62, R63). -/
inductive Instr where
  /-- 00E0 `CLS`: clear the frame buffer (R140). -/
  | cls
  /-- 00EE `RET`: return from subroutine (R90). -/
  | ret
  /-- 1nnn `JP nnn`: jump (R91). -/
  | jp (nnn : Addr12)
  /-- 2nnn `CALL nnn`: call subroutine (R92). -/
  | call (nnn : Addr12)
  /-- 3xkk `SE Vx, kk`: skip if equal to immediate (R100). -/
  | seImm (x : Reg) (kk : Byte)
  /-- 4xkk `SNE Vx, kk`: skip if not equal to immediate (R101). -/
  | sneImm (x : Reg) (kk : Byte)
  /-- 5xy0 `SE Vx, Vy`: skip if registers equal (R102). -/
  | seReg (x y : Reg)
  /-- 6xkk `LD Vx, kk`: load immediate (R111). -/
  | ldImm (x : Reg) (kk : Byte)
  /-- 7xkk `ADD Vx, kk`: add immediate, no flag (R112). -/
  | addImm (x : Reg) (kk : Byte)
  /-- 8xy0 `LD Vx, Vy`: assign (R113). -/
  | ldReg (x y : Reg)
  /-- 8xy1 `OR Vx, Vy`: bitwise or (R114). -/
  | orReg (x y : Reg)
  /-- 8xy2 `AND Vx, Vy`: bitwise and (R115). -/
  | andReg (x y : Reg)
  /-- 8xy3 `XOR Vx, Vy`: bitwise exclusive or (R116). -/
  | xorReg (x y : Reg)
  /-- 8xy4 `ADD Vx, Vy`: add, VF = carry (R117). -/
  | addReg (x y : Reg)
  /-- 8xy5 `SUB Vx, Vy`: `V[x] - V[y]`, VF = no borrow (R118). -/
  | subReg (x y : Reg)
  /-- 8xy6 `SHR Vx`: shift right by 1; `y` is encoded and ignored (R119). -/
  | shr (x y : Reg)
  /-- 8xy7 `SUBN Vx, Vy`: `V[y] - V[x]`, VF = no borrow (R120). -/
  | subnReg (x y : Reg)
  /-- 8xyE `SHL Vx`: shift left by 1; `y` is encoded and ignored (R121). -/
  | shl (x y : Reg)
  /-- 9xy0 `SNE Vx, Vy`: skip if registers differ (R103). -/
  | sneReg (x y : Reg)
  /-- Annn `LD I, nnn`: load the index register (R130). -/
  | ldI (nnn : Addr12)
  /-- Bnnn `JP V0, nnn`: jump with offset `V[0]` (R93). -/
  | jpV0 (nnn : Addr12)
  /-- Cxkk `RND Vx, kk`: random byte and immediate (R122). -/
  | rnd (x : Reg) (kk : Byte)
  /-- Dxyn `DRW Vx, Vy, n`: draw an `n`-row sprite (R141). -/
  | drw (x y : Reg) (n : Fin 16)
  /-- Ex9E `SKP Vx`: skip if key pressed (R150). -/
  | skp (x : Reg)
  /-- ExA1 `SKNP Vx`: skip if key not pressed (R151). -/
  | sknp (x : Reg)
  /-- Fx07 `LD Vx, DT`: read the delay timer (R152). -/
  | ldVxDT (x : Reg)
  /-- Fx0A `LD Vx, K`: wait for a key (R153). -/
  | ldVxK (x : Reg)
  /-- Fx15 `LD DT, Vx`: write the delay timer (R154). -/
  | ldDTVx (x : Reg)
  /-- Fx18 `LD ST, Vx`: write the sound timer (R155). -/
  | ldSTVx (x : Reg)
  /-- Fx1E `ADD I, Vx`: add to the index register, VF = above 0xFFF (R131). -/
  | addIVx (x : Reg)
  /-- Fx29 `LD F, Vx`: address of a font glyph (R132). -/
  | ldFVx (x : Reg)
  /-- Fx33 `LD B, Vx`: store decimal digits (R133). -/
  | ldBVx (x : Reg)
  /-- Fx55 `LD [I], Vx`: store registers at `I` (R134). -/
  | ldMemVx (x : Reg)
  /-- Fx65 `LD Vx, [I]`: load registers from `I` (R135). -/
  | ldVxMem (x : Reg)
  deriving DecidableEq, Repr

/-- A row of the opcode map: a word `op` matches when `op and mask = value` (R64). -/
structure OpcodeRow where
  mnemonic : String
  mask : Word
  value : Word
  deriving DecidableEq, Repr

/-- Rows 0 to 16 of the opcode map of R64, in the table's order. -/
def opcodeTableLow : List OpcodeRow :=
  [⟨"CLS", 0xFFFF, 0x00E0⟩,
   ⟨"RET", 0xFFFF, 0x00EE⟩,
   ⟨"JP_nnn", 0xF000, 0x1000⟩,
   ⟨"CALL_nnn", 0xF000, 0x2000⟩,
   ⟨"SE_Vx__kk", 0xF000, 0x3000⟩,
   ⟨"SNE_Vx__kk", 0xF000, 0x4000⟩,
   ⟨"SE_Vx__Vy", 0xF00F, 0x5000⟩,
   ⟨"LD_Vx__kk", 0xF000, 0x6000⟩,
   ⟨"ADD_Vx__kk", 0xF000, 0x7000⟩,
   ⟨"LD_Vx__Vy", 0xF00F, 0x8000⟩,
   ⟨"OR_Vx__Vy", 0xF00F, 0x8001⟩,
   ⟨"AND_Vx__Vy", 0xF00F, 0x8002⟩,
   ⟨"XOR_Vx__Vy", 0xF00F, 0x8003⟩,
   ⟨"ADD_Vx__Vy", 0xF00F, 0x8004⟩,
   ⟨"SUB_Vx__Vy", 0xF00F, 0x8005⟩,
   ⟨"SHR_Vx", 0xF00F, 0x8006⟩,
   ⟨"SUBN_Vx__Vy", 0xF00F, 0x8007⟩]

/-- Rows 17 to 33 of the opcode map of R64. -/
def opcodeTableHigh : List OpcodeRow :=
  [⟨"SHL_Vx", 0xF00F, 0x800E⟩,
   ⟨"SNE_Vx__Vy", 0xF00F, 0x9000⟩,
   ⟨"LD_I__nnn", 0xF000, 0xA000⟩,
   ⟨"JP_V0__nnn", 0xF000, 0xB000⟩,
   ⟨"RND_Vx__kk", 0xF000, 0xC000⟩,
   ⟨"DRW_Vx__Vy__n", 0xF000, 0xD000⟩,
   ⟨"SKP_Vx", 0xF0FF, 0xE09E⟩,
   ⟨"SKNP_Vx", 0xF0FF, 0xE0A1⟩,
   ⟨"LD_Vx__DT", 0xF0FF, 0xF007⟩,
   ⟨"LD_Vx__K", 0xF0FF, 0xF00A⟩,
   ⟨"LD_DT__Vx", 0xF0FF, 0xF015⟩,
   ⟨"LD_ST__Vx", 0xF0FF, 0xF018⟩,
   ⟨"ADD_I__Vx", 0xF0FF, 0xF01E⟩,
   ⟨"LD_F__Vx", 0xF0FF, 0xF029⟩,
   ⟨"LD_B__Vx", 0xF0FF, 0xF033⟩,
   ⟨"LD__I___Vx", 0xF0FF, 0xF055⟩,
   ⟨"LD_Vx___I", 0xF0FF, 0xF065⟩]

/-- The opcode map of R64: 34 rows. -/
def opcodeTable : List OpcodeRow := opcodeTableLow ++ opcodeTableHigh

/-- The number of an instruction's row in `opcodeTable`. -/
def Instr.rowNumber : Instr → Nat
  | .cls => 0
  | .ret => 1
  | .jp _ => 2
  | .call _ => 3
  | .seImm _ _ => 4
  | .sneImm _ _ => 5
  | .seReg _ _ => 6
  | .ldImm _ _ => 7
  | .addImm _ _ => 8
  | .ldReg _ _ => 9
  | .orReg _ _ => 10
  | .andReg _ _ => 11
  | .xorReg _ _ => 12
  | .addReg _ _ => 13
  | .subReg _ _ => 14
  | .shr _ _ => 15
  | .subnReg _ _ => 16
  | .shl _ _ => 17
  | .sneReg _ _ => 18
  | .ldI _ => 19
  | .jpV0 _ => 20
  | .rnd _ _ => 21
  | .drw _ _ _ => 22
  | .skp _ => 23
  | .sknp _ => 24
  | .ldVxDT _ => 25
  | .ldVxK _ => 26
  | .ldDTVx _ => 27
  | .ldSTVx _ => 28
  | .addIVx _ => 29
  | .ldFVx _ => 30
  | .ldBVx _ => 31
  | .ldMemVx _ => 32
  | .ldVxMem _ => 33

/-- The row of the opcode map that an instruction's words match. -/
def Instr.row (i : Instr) : OpcodeRow := opcodeTable.getD i.rowNumber ⟨"", 0, 1⟩

end Sys2Proof
end

