-- ==== Sys2Proof/WellFormed.lean ====
section
/-! DEFINITION. Well-formedness checks: of an instruction's operands, of a 16-bit word, of a ROM image. -/

namespace Sys2Proof

/-- A register number names a register when it fits its 4-bit field (spec/10_state.md R10). -/
def regNumberOk (x : Nat) : Bool := decide (x < 16)

/-- A sprite height fits the 4-bit field `n` (spec/30_encoding.md R63). -/
def rowCountOk (n : Nat) : Bool := decide (n < 16)

/-- A byte immediate fits the 8-bit field `kk` (R63). -/
def byteImmOk (kk : Nat) : Bool := decide (kk < 256)

/-- An address immediate fits the 12-bit field `nnn` (R63). -/
def addrImmOk (nnn : Nat) : Bool := decide (nnn < 4096)

/-- Every operand of the instruction fits the field its format gives it (R62, R63). The operand types
already say so, and every value of every field is legal: `Instr.wellFormed_all` in Laws/Decode.lean. -/
def Instr.wellFormed : Instr → Bool
  | .cls | .ret => true
  | .jp nnn | .call nnn | .ldI nnn | .jpV0 nnn => addrImmOk nnn.toNat
  | .seImm x kk | .sneImm x kk | .ldImm x kk | .addImm x kk | .rnd x kk =>
    regNumberOk x.val && byteImmOk kk.toNat
  | .seReg x y | .sneReg x y | .ldReg x y | .orReg x y | .andReg x y | .xorReg x y | .addReg x y
  | .subReg x y | .shr x y | .subnReg x y | .shl x y => regNumberOk x.val && regNumberOk y.val
  | .drw x y n => regNumberOk x.val && regNumberOk y.val && rowCountOk n.val
  | .skp x | .sknp x | .ldVxDT x | .ldVxK x | .ldDTVx x | .ldSTVx x | .addIVx x | .ldFVx x | .ldBVx x
  | .ldMemVx x | .ldVxMem x => regNumberOk x.val

/-- A row of the opcode map matches a word on every fixed bit (R64). -/
def OpcodeRow.isMatch (r : OpcodeRow) (op : Word) : Bool := op &&& r.mask == r.value

/-- A 16-bit word is an instruction when some row of the opcode map matches it; otherwise it is an
unknown opcode (R67). -/
def wordKnown (op : Word) : Bool := opcodeTable.any (fun r => r.isMatch op)

/-- A ROM image fits the program region: at most 3584 bytes, any parity, possibly empty
(spec/70_reset_and_hazards.md R192, R193). -/
def romOk (bytes : List Byte) : Bool := decide (bytes.length ≤ Config.progMax)

end Sys2Proof
end

