-- ==== Sys2Proof/Decode.lean ====
section
/-! DEFINITION. Decoding, total on any bytes and rejecting by name, and after it the encoder
(spec/30_encoding.md). -/

namespace Sys2Proof

/-- Why bytes are not an instruction. `unknownOpcode` is the spec's error of that name (R67); `truncated`
says that fewer than two bytes were given, which a fetch never does. -/
inductive DecodeError where
  | truncated
  | unknownOpcode (op : Word)
  deriving DecidableEq, Repr

/-- The high nibble `op[15:12]`, the instruction family (R61). -/
def fieldFam (op : Word) : BitVec 4 := op.extractLsb' 12 4

/-- The field `x = op[11:8]` (R61). -/
def fieldX (op : Word) : Reg := (op.extractLsb' 8 4).toFin

/-- The field `y = op[7:4]` (R61). -/
def fieldY (op : Word) : Reg := (op.extractLsb' 4 4).toFin

/-- The field `n = op[3:0]` (R61). -/
def fieldN (op : Word) : Fin 16 := (op.extractLsb' 0 4).toFin

/-- The field `kk = op[7:0]` (R61). -/
def fieldKK (op : Word) : Byte := op.extractLsb' 0 8

/-- The field `nnn = op[11:0]` (R61). -/
def fieldNNN (op : Word) : Addr12 := op.extractLsb' 0 12

/-- Family 0: the two words 00E0 and 00EE and nothing else (R64, R67, R68). -/
def decodeFam0 (op : Word) : Except DecodeError Instr :=
  match op.toNat with
  | 0x00E0 => .ok .cls
  | 0x00EE => .ok .ret
  | _ => .error (.unknownOpcode op)

/-- Family 5: the low nibble must be 0 (R102). -/
def decodeFam5 (op : Word) : Except DecodeError Instr :=
  match (fieldN op).val with
  | 0 => .ok (.seReg (fieldX op) (fieldY op))
  | _ => .error (.unknownOpcode op)

/-- Family 8: the low nibble selects the operation (R65). The assignment of nibbles 1 to 7 is the spec's own
choice, D21; log 17. -/
def decodeFam8 (op : Word) : Except DecodeError Instr :=
  match (fieldN op).val with
  | 0x0 => .ok (.ldReg (fieldX op) (fieldY op))
  | 0x1 => .ok (.orReg (fieldX op) (fieldY op))
  | 0x2 => .ok (.andReg (fieldX op) (fieldY op))
  | 0x3 => .ok (.xorReg (fieldX op) (fieldY op))
  | 0x4 => .ok (.addReg (fieldX op) (fieldY op))
  | 0x5 => .ok (.subReg (fieldX op) (fieldY op))
  | 0x6 => .ok (.shr (fieldX op) (fieldY op))
  | 0x7 => .ok (.subnReg (fieldX op) (fieldY op))
  | 0xE => .ok (.shl (fieldX op) (fieldY op))
  | _ => .error (.unknownOpcode op)

/-- Family 9: the low nibble must be 0 (R103). -/
def decodeFam9 (op : Word) : Except DecodeError Instr :=
  match (fieldN op).val with
  | 0 => .ok (.sneReg (fieldX op) (fieldY op))
  | _ => .error (.unknownOpcode op)

/-- Family E: the low byte selects the operation (R66). -/
def decodeFamE (op : Word) : Except DecodeError Instr :=
  match (fieldKK op).toNat with
  | 0x9E => .ok (.skp (fieldX op))
  | 0xA1 => .ok (.sknp (fieldX op))
  | _ => .error (.unknownOpcode op)

/-- Family F: the low byte selects the operation (R66). Which of Fx07, Fx15, Fx18 does what is the spec's
own choice, D22; log 17. -/
def decodeFamF (op : Word) : Except DecodeError Instr :=
  match (fieldKK op).toNat with
  | 0x07 => .ok (.ldVxDT (fieldX op))
  | 0x0A => .ok (.ldVxK (fieldX op))
  | 0x15 => .ok (.ldDTVx (fieldX op))
  | 0x18 => .ok (.ldSTVx (fieldX op))
  | 0x1E => .ok (.addIVx (fieldX op))
  | 0x29 => .ok (.ldFVx (fieldX op))
  | 0x33 => .ok (.ldBVx (fieldX op))
  | 0x55 => .ok (.ldMemVx (fieldX op))
  | 0x65 => .ok (.ldVxMem (fieldX op))
  | _ => .error (.unknownOpcode op)

/-- Decode a 16-bit opcode: by the high nibble, then by the sub-opcode bits the format fixes (R64). It reads
nothing but `op` (R83). A word that matches no row is an unknown opcode (R67, exact on every fixed bit, D20). -/
def decodeWord (op : Word) : Except DecodeError Instr :=
  match (fieldFam op).toNat with
  | 0x0 => decodeFam0 op
  | 0x1 => .ok (.jp (fieldNNN op))
  | 0x2 => .ok (.call (fieldNNN op))
  | 0x3 => .ok (.seImm (fieldX op) (fieldKK op))
  | 0x4 => .ok (.sneImm (fieldX op) (fieldKK op))
  | 0x5 => decodeFam5 op
  | 0x6 => .ok (.ldImm (fieldX op) (fieldKK op))
  | 0x7 => .ok (.addImm (fieldX op) (fieldKK op))
  | 0x8 => decodeFam8 op
  | 0x9 => decodeFam9 op
  | 0xA => .ok (.ldI (fieldNNN op))
  | 0xB => .ok (.jpV0 (fieldNNN op))
  | 0xC => .ok (.rnd (fieldX op) (fieldKK op))
  | 0xD => .ok (.drw (fieldX op) (fieldY op) (fieldN op))
  | 0xE => decodeFamE op
  | _ => decodeFamF op

/-- The opcode of two fetched bytes, the first one high: `op = b0 || b1` (R47, R60). -/
def opcodeOf (b0 b1 : Byte) : Word := b0 ++ b1

/-- Decode the first instruction of a list of bytes and give back the rest of the list (R60). -/
def decode : List Byte → Except DecodeError (Instr × List Byte)
  | b0 :: b1 :: rest =>
    match decodeWord (opcodeOf b0 b1) with
    | .ok i => .ok (i, rest)
    | .error e => .error e
  | _ => .error .truncated

/-- The high byte of an opcode, stored at the lower address (R47). -/
def highByte (op : Word) : Byte := op.extractLsb' 8 8

/-- The low byte of an opcode, stored at the higher address (R47). -/
def lowByte (op : Word) : Byte := op.extractLsb' 0 8

/-- The instruction the decoder reads from a word numbered as spec/opcode_table.json numbers it. An
instruction has one 16-bit word, so `w` is the opcode; bits above `nbits` are 0. -/
def decodeTableWord (nbits w : Nat) : Option Instr :=
  let op : Word := BitVec.ofNat 16 (w % 2 ^ nbits)
  match decode [highByte op, lowByte op] with
  | .ok (i, _) => some i
  | .error _ => none

/-- Format A (R62): family and `nnn`. -/
def wordA (fam : BitVec 4) (nnn : Addr12) : Word := fam ++ nnn

/-- Format XK (R62): family, `x`, `kk`. -/
def wordXK (fam : BitVec 4) (x : Reg) (kk : Byte) : Word := fam ++ (BitVec.ofFin x : BitVec 4) ++ kk

/-- Formats XY and XYN (R62): family, `x`, `y` and the low nibble. -/
def wordXYN (fam : BitVec 4) (x y : Reg) (n : BitVec 4) : Word :=
  fam ++ (BitVec.ofFin x : BitVec 4) ++ (BitVec.ofFin y : BitVec 4) ++ n

/-- The word of an instruction, from the opcode map of R64 and the formats of R62. -/
def encode : Instr → Word
  | .cls => 0x00E0
  | .ret => 0x00EE
  | .jp nnn => wordA 0x1 nnn
  | .call nnn => wordA 0x2 nnn
  | .seImm x kk => wordXK 0x3 x kk
  | .sneImm x kk => wordXK 0x4 x kk
  | .seReg x y => wordXYN 0x5 x y 0x0
  | .ldImm x kk => wordXK 0x6 x kk
  | .addImm x kk => wordXK 0x7 x kk
  | .ldReg x y => wordXYN 0x8 x y 0x0
  | .orReg x y => wordXYN 0x8 x y 0x1
  | .andReg x y => wordXYN 0x8 x y 0x2
  | .xorReg x y => wordXYN 0x8 x y 0x3
  | .addReg x y => wordXYN 0x8 x y 0x4
  | .subReg x y => wordXYN 0x8 x y 0x5
  | .shr x y => wordXYN 0x8 x y 0x6
  | .subnReg x y => wordXYN 0x8 x y 0x7
  | .shl x y => wordXYN 0x8 x y 0xE
  | .sneReg x y => wordXYN 0x9 x y 0x0
  | .ldI nnn => wordA 0xA nnn
  | .jpV0 nnn => wordA 0xB nnn
  | .rnd x kk => wordXK 0xC x kk
  | .drw x y n => wordXYN 0xD x y (BitVec.ofFin n)
  | .skp x => wordXK 0xE x 0x9E
  | .sknp x => wordXK 0xE x 0xA1
  | .ldVxDT x => wordXK 0xF x 0x07
  | .ldVxK x => wordXK 0xF x 0x0A
  | .ldDTVx x => wordXK 0xF x 0x15
  | .ldSTVx x => wordXK 0xF x 0x18
  | .addIVx x => wordXK 0xF x 0x1E
  | .ldFVx x => wordXK 0xF x 0x29
  | .ldBVx x => wordXK 0xF x 0x33
  | .ldMemVx x => wordXK 0xF x 0x55
  | .ldVxMem x => wordXK 0xF x 0x65

/-- The two bytes of an instruction, high byte first (R47). -/
def encodeBytes (i : Instr) : List Byte := [highByte (encode i), lowByte (encode i)]

end Sys2Proof
end

