-- ==== Sys2Proof/Machine/State.lean ====
section
/-! DEFINITION. The state of chip8 CORE as plain data: every element of spec/10_state.md, the result output
`ERR`, and the model's own record of the `RND` input; and the state after RESET (R24). -/

namespace Sys2Proof.Machine

/-- The two machine states (R20). -/
inductive Mode where
  | running
  /-- A key wait; `x` is the latched register that the awaited key number goes to. -/
  | waitingForKey (x : Reg)
  deriving DecidableEq, Repr

/-- The result output `ERR` of an event, with the value each error records (R23, R160). -/
inductive Err where
  /-- The event completed. -/
  | none
  /-- STEP at decode: the fetched word matches no row of the opcode map (R84). -/
  | unknownOpcode (op : Word)
  /-- STEP, 2nnn with `SP = 16` (R92). -/
  | stackOverflow
  /-- STEP, 00EE with `SP = 0` (R90). -/
  | stackUnderflow
  /-- STEP, an access to an address above 0xFFF: fetch, Dxyn, Fx33, Fx55, Fx65 (R44, R45, R81). -/
  | outOfBoundsAccess (addr : Nat)
  /-- LOAD of more than 3584 bytes (R193). -/
  | romTooLarge
  deriving DecidableEq, Repr

/-- Why the machine could stop. Nothing raises a fault: the spec gives every error a defined next state and
accepts a STEP in every state (R167, R197), so there is no constructor. Safe; log 1. -/
inductive Fault : Type
  deriving DecidableEq, Repr

/-- Why a step could have no meaning. -/
inductive Refusal where
  /-- Raised by an arm of `exec` whose instruction has no meaning yet, and by nothing else; no arm is of
  that kind. Safe. -/
  | notModelled (mnemonic : String)
  deriving DecidableEq, Repr

/-- `MEM` (R21, R40) as the cells that differ from their contents after RESET, addresses strictly rising
(`Memory.wf` in Machine/Memory.lean); log 8. -/
abbrev Memory := List Host.Cell

/-- The state of the machine: the list of spec/10_state.md, which R23 says is complete, then the outputs and
inputs the model records beside it. -/
structure State where
  /-- `V[0..15]`; `V[0xF]` is the flag register VF (R10, R11). -/
  v : Vector Byte 16
  /-- `I` (R13). -/
  index : Word
  /-- `PC` (R14). -/
  pc : Word
  /-- `STACK[0..15]`, a store of its own (R15). -/
  stack : Vector Word 16
  /-- `SP`, the number of valid stack entries (R15). -/
  sp : Fin 17
  /-- `DT` (R17). -/
  dt : Byte
  /-- `ST` (R17). -/
  st : Byte
  /-- `KEY`: bit k is 1 when key k is pressed (R18). -/
  key : Word
  /-- `FB`: cell `FB[x + 64*y]` is bit x of row y (R19); log 9. -/
  fb : Vector (BitVec 64) 32
  /-- `MODE` (R20). -/
  mode : Mode
  /-- `MEM[0..4095]` (R21). -/
  mem : Memory
  /-- The output `ERR` of the event just completed (R23); log 2. -/
  err : Err
  /-- The input `RND`: bytes the host has supplied and no Cxkk has consumed, next first (R22); log 3. -/
  rndInput : List Byte
  /-- The input `RND`: how many bytes have been consumed, the index of the next free value (R22); log 3. -/
  rndDrawn : Nat
  deriving DecidableEq, Repr

/-- The state after RESET (R24, R190) of the machine with the default `FONT` (`State.resetWithFont` in
Machine/Memory.lean takes any; log 5): all zero, `MODE = Running`, and every memory byte at its contents
after RESET, which is what an unlisted address reads as. `err`, `rndInput` and `rndDrawn` are the model's own:
DESIGN CHOICE, log 2 and log 3. -/
def State.reset : State where
  v := Vector.replicate 16 0
  index := 0
  pc := 0
  stack := Vector.replicate 16 0
  sp := 0
  dt := 0
  st := 0
  key := 0
  fb := Vector.replicate 32 0
  mode := .running
  mem := []
  err := .none
  rndInput := []
  rndDrawn := 0

end Sys2Proof.Machine
end

