-- ==== Sys2Proof/Machine/Memory.lean ====
section
/-! DEFINITION. `MEM` as data: what an unlisted address reads as, reading and writing one byte, the program
region's replacement by LOAD, and the canonical form (spec/20_memory.md, spec/70_reset_and_hazards.md). -/

namespace Sys2Proof.Machine

/-- What an unlisted address reads as: the contents of address `a` after a RESET with the default `FONT`, so the
font byte below 80 and 0 elsewhere (R24, R41, R42); log 8. -/
def resetByte (a : Nat) : Byte := Config.font.getD a 0

/-- The byte at address `a` (R51: the last value written there). -/
def Memory.read : Memory → Nat → Byte
  | [], a => resetByte a
  | (k, v) :: m, a => if k = a then v else Memory.read m a

/-- Put a cell at the head of a memory whose addresses are all higher, unless it equals what the address
reads as unlisted. -/
def Memory.cons (a : Nat) (b : Byte) (m : Memory) : Memory :=
  if b = resetByte a then m else (a, b) :: m

/-- Write byte `b` at address `a`, keeping the canonical form. -/
def Memory.write : Memory → Nat → Byte → Memory
  | [], a, b => Memory.cons a b []
  | (k, v) :: m, a, b =>
    if a < k then Memory.cons a b ((k, v) :: m)
    else if a = k then Memory.cons a b m
    else (k, v) :: Memory.write m a b

/-- The canonical cells of `bytes` placed from address `a` upward. -/
def Memory.place (a : Nat) : List Byte → Memory
  | [] => []
  | b :: bytes => Memory.cons a b (Memory.place (a + 1) bytes)

/-- The state after RESET of a machine with the given `FONT` (R7, R24, R42): as `State.reset`, with that table at 0
to 79. Its cells are those where the table differs from the default one; log 5. -/
def State.resetWithFont (font : Config.Font) : State :=
  { State.reset with mem := Memory.place 0 font.toList }

/-- The memory after a successful LOAD (R192, R194): the font region as it was, then the program's bytes
from 0x200, then zeros, which is what the program region reads as unlisted. -/
def Memory.loadProgram (m : Memory) (bytes : List Byte) : Memory :=
  m.filter (fun c => decide (c.1 < Config.progBase)) ++ Memory.place Config.progBase bytes

/-- Every listed address is at least `lo`, below 0x1000 and above the ones before it, and every listed byte
differs from what its address reads as unlisted. -/
def Memory.wfFrom : Nat → Memory → Bool
  | _, [] => true
  | lo, (k, v) :: m =>
    decide (lo ≤ k) && decide (k ≤ Config.lastAddress) && decide (v ≠ resetByte k) && Memory.wfFrom (k + 1) m

/-- The canonical form: equal memories are equal data; log 8. -/
def Memory.wf (m : Memory) : Bool := Memory.wfFrom 0 m

end Sys2Proof.Machine
end

