-- ==== Sys2Proof/Machine/Operands.lean ====
section
/-! DEFINITION. The registers' accessors and every operand form: general registers, immediates, the address
at `I`, key numbers, sprite coordinates, register ranges, decimal digits. -/

namespace Sys2Proof.Machine

/-- The number of the flag register VF (R11). -/
abbrev flagReg : Reg := 15

/-- Read `V[x]` (R10). -/
def State.getV (s : State) (x : Reg) : Byte := s.v[x.val]

/-- Write `V[x]` (R10). -/
def State.setV (s : State) (x : Reg) (b : Byte) : State := { s with v := s.v.set x.val b }

/-- Write `I` (R13). -/
def State.setIndex (s : State) (w : Word) : State := { s with index := w }

/-- Write `PC`; no value is checked (R14, R94). -/
def State.setPc (s : State) (w : Word) : State := { s with pc := w }

/-- Write `DT` (R17). -/
def State.setDT (s : State) (b : Byte) : State := { s with dt := b }

/-- Write `ST` (R17). -/
def State.setST (s : State) (b : Byte) : State := { s with st := b }

/-- Write the keypad vector; only the event KEYS does (R18, R175). -/
def State.setKey (s : State) (k : Word) : State := { s with key := k }

/-- Write `MODE` (R20). -/
def State.setMode (s : State) (m : Mode) : State := { s with mode := m }

/-- Write the result output `ERR` (R23). -/
def State.setErr (s : State) (e : Err) : State := { s with err := e }

/-- Write the frame buffer (R19). -/
def State.setFb (s : State) (f : Vector (BitVec 64) 32) : State := { s with fb := f }

/-- Write the memory as a whole. -/
def State.setMem (s : State) (m : Memory) : State := { s with mem := m }

/-- The immediate `nnn` as a 16-bit value, zero-extended (R63). -/
def addrImm (nnn : Addr12) : Word := nnn.setWidth 16

/-- `nnn + V[0]`, both zero-extended; at most 0x10FE, so nothing is lost (R93). -/
def jumpTarget (s : State) (nnn : Addr12) : Word := addrImm nnn + (s.getV 0).setWidth 16

/-- The address of the byte `off` past `I`, on unbounded integers: neither masked nor wrapped (R46; D9, log 14). -/
def State.addrAt (s : State) (off : Nat) : Nat := s.index.toNat + off

/-- The address of the built-in glyph for the low four bits of a byte (R132). -/
def glyphAddr (b : Byte) : Word := BitVec.ofNat 16 (Config.glyphLen * (b.toNat % 16))

/-- The key a byte names: its low four bits (R150; D7, log 12). -/
def keyNumber (b : Byte) : Fin 16 := ⟨b.toNat % 16, Nat.mod_lt _ (by decide)⟩

/-- Key k is pressed, as a level (R18). -/
def State.keyDown (s : State) (k : Fin 16) : Bool := s.key.getLsbD k.val

/-- The sixteen register or key numbers in ascending order. -/
def allRegs : List Reg := [0, 1, 2, 3, 4, 5, 6, 7, 8, 9, 10, 11, 12, 13, 14, 15]

/-- The registers `V[0] .. V[x]`, x inclusive, in ascending order (R134, R135). -/
def regsUpTo (x : Reg) : List Reg := allRegs.take (x.val + 1)

/-- The lowest-numbered pressed key, if any is pressed (R86, R153). -/
def State.lowestKey (s : State) : Option (Fin 16) := allRegs.find? s.keyDown

/-- The hundreds digit of a byte (R133). -/
def hundreds (b : Byte) : Byte := BitVec.ofNat 8 (b.toNat / 100)

/-- The tens digit of a byte (R133). -/
def tens (b : Byte) : Byte := BitVec.ofNat 8 (b.toNat / 10 % 10)

/-- The ones digit of a byte (R133). -/
def ones (b : Byte) : Byte := BitVec.ofNat 8 (b.toNat % 10)

/-- What Fx33 stores, in order: the decimal digits, most significant first (R133). -/
def State.bcdCells (s : State) (x : Reg) : List Host.Cell :=
  [(s.addrAt 0, hundreds (s.getV x)), (s.addrAt 1, tens (s.getV x)), (s.addrAt 2, ones (s.getV x))]

/-- What Fx55 stores, in order: `V[i]` at `I + i` (R134). -/
def State.regCells (s : State) (x : Reg) : List Host.Cell :=
  (regsUpTo x).map (fun r => (s.addrAt r.val, s.getV r))

/-- A column reduced modulo 64 (R141: the start column, and the wrap at the right edge; D4, log 10). -/
def wrapCol (n : Nat) : Fin 64 := ⟨n % 64, Nat.mod_lt _ (by decide)⟩

/-- A row reduced modulo 32 (R141, C1: the start row, and the wrap at the bottom edge; D4, log 10). -/
def wrapRow (n : Nat) : Fin 32 := ⟨n % 32, Nat.mod_lt _ (by decide)⟩

/-- The eight columns of a sprite row, left to right. -/
def spriteCols : List (Fin 8) := [0, 1, 2, 3, 4, 5, 6, 7]

/-- The pixel of a sprite row at column offset `c`: bit 7 is the leftmost (R141; D5, log 10). -/
def spriteBit (b : Byte) (c : Fin 8) : Bool := b.getLsbD (7 - c.val)

/-- The cell `FB[px + 64*py]` (R19). -/
def State.cell (s : State) (px : Fin 64) (py : Fin 32) : Bool := s.fb[py.val].getLsbD px.val

end Sys2Proof.Machine
end

