-- ==== Sys2Proof/Machine/Flags.lean ====
section
/-! DEFINITION. VF, the only flag (spec/10_state.md R11): every flag computation, and the one operation that
writes a result and then the flag (R12). -/

namespace Sys2Proof.Machine

/-- VF holds 0 or 1 when an instruction writes it as a flag (R11). -/
def flagByte (f : Bool) : Byte := if f then 1 else 0

/-- Carry out of bit 7 (R117). -/
def carryOut (a b : Byte) : Bool := decide (a.toNat + b.toNat > 255)

/-- No borrow in `a - b`, the equal case included (R118, R120). -/
def noBorrow (a b : Byte) : Bool := decide (b.toNat ≤ a.toNat)

/-- The bit a right shift by 1 shifts out: old bit 0 (R119). -/
def shiftedOutRight (a : Byte) : Bool := a.getLsbD 0

/-- The bit a left shift by 1 shifts out: old bit 7 (R121). -/
def shiftedOutLeft (a : Byte) : Bool := a.getLsbD 7

/-- The stored value of `I` is above 0xFFF (R131; D8, log 13). -/
def indexAbove (w : Word) : Bool := decide (w.toNat > Config.lastAddress)

/-- Write the flag register. -/
def State.setFlag (s : State) (f : Bool) : State := s.setV flagReg (flagByte f)

/-- Write the result to `V[x]`, then the flag to `V[0xF]`: with `x = 0xF` the flag remains (R12; D6, log 11). -/
def State.setResultFlag (s : State) (x : Reg) (r : Byte) (f : Bool) : State := (s.setV x r).setFlag f

end Sys2Proof.Machine
end

