-- ==== Sys2Proof/Machine/Ops.lean ====
section
/-! DEFINITION. The named operations the meanings share: raising an error, the memory primitives and their
sequences, the call stack, the keypad, drawing, the random input, and the parts of a STEP around an
instruction. -/

namespace Sys2Proof.Machine

/-- What a meaning answers. -/
abbrev Result := Host.Outcome State Fault Refusal

/-- `raise E(info)` (R166), the whole of taking an exception on this machine: the event ends with `ERR = E`,
every write made before stays, no state is saved, no mode changes and control goes nowhere. There is no return
from it (R168); the machine goes on from this state (R167); log 1. -/
def raise (e : Err) (s : State) : State := s.setErr e

/-- The numeric code of an error (R160; D15, log 22). -/
def Err.code : Err → Nat
  | .none => 0
  | .unknownOpcode _ => 1
  | .stackOverflow => 2
  | .stackUnderflow => 3
  | .outOfBoundsAccess _ => 4
  | .romTooLarge => 5

/-- An event begins with no error: `ERR` is not latched (R23); log 2. -/
def beginEvent (s : State) : State := s.setErr .none

/-- `MemRead(addr, 1)` (R44); `none` is the error `OutOfBoundsAccess(addr)`. -/
def memRead (s : State) (addr : Nat) : Option Byte :=
  if addr ≤ Config.lastAddress then some (s.mem.read addr) else none

/-- `MemWrite(addr, 1, v)` (R45); `none` is the error `OutOfBoundsAccess(addr)`. -/
def memWrite (s : State) (addr : Nat) (b : Byte) : Option State :=
  if addr ≤ Config.lastAddress then some (s.setMem (s.mem.write addr b)) else none

/-- Single-byte writes in the order given; the first one out of bounds raises, and those before it stay
(R49, R50; D10, log 14). -/
def storeCells : List Host.Cell → State → State
  | [], s => s
  | (addr, b) :: cells, s =>
    match memWrite s addr b with
    | some t => storeCells cells t
    | none => raise (.outOfBoundsAccess addr) s

/-- `V[i] <- MemRead(I + i, 1)` for the registers in the order given; the first read out of bounds raises, and
the registers before it stay loaded (R135, R50; D10, log 14). -/
def loadRegs : List Reg → State → State
  | [], s => s
  | r :: regs, s =>
    match memRead s (s.addrAt r.val) with
    | some b => loadRegs regs (s.setV r b)
    | none => raise (.outOfBoundsAccess (s.addrAt r.val)) s

/-- After the fetch and before execution, `PC <- PC + 2` (R82). -/
def advancePc (s : State) : State := s.setPc (s.pc + 2)

/-- A skip: a second addition of 2 to `PC`, when the condition holds (R104). -/
def skipIf (c : Bool) (s : State) : State := if c then advancePc s else s

/-- Push `PC`, the advanced one, unless the stack is full (R92); `none` is the error `StackOverflow`. -/
def pushPc (s : State) : Option State :=
  if h : s.sp.val < Config.stackDepth then
    some { s with stack := s.stack.set s.sp.val s.pc h, sp := ⟨s.sp.val + 1, Nat.succ_lt_succ h⟩ }
  else none

/-- Pop into `PC`, unless the stack is empty (R90); `none` is the error `StackUnderflow`. The popped entry
stays where it is (R16; D25, log 19). -/
def popPc (s : State) : Option State :=
  if h : s.sp.val = 0 then none
  else
    some { s with
      pc := s.stack[s.sp.val - 1]'(by have := s.sp.isLt; omega)
      sp := ⟨s.sp.val - 1, by have := s.sp.isLt; omega⟩ }

/-- Give a register the number of a key (R86, R153). -/
def State.setKeyNumber (s : State) (x : Reg) (k : Fin 16) : State := s.setV x (BitVec.ofNat 8 k.val)

/-- The STEP of a key wait (R86): with a key pressed, its number goes to the latched register and the machine
runs again; otherwise nothing changes. -/
def keyPoll (x : Reg) (s : State) : State :=
  match s.lowestKey with
  | some k => (s.setKeyNumber x k).setMode .running
  | none => s

/-- XOR a lit sprite pixel onto a cell; a cell that was 1 sets VF (R141's
pseudocode; log 24). -/
def drawPixel (px : Fin 64) (py : Fin 32) (s : State) : State :=
  (if s.cell px py then s.setFlag true else s).setFb
    (s.fb.set py.val (s.fb[py.val] ^^^ BitVec.twoPow 64 px.val))

/-- Draw the given columns of a sprite row whose left column is `x0` (R141). -/
def drawCols (x0 : Nat) (py : Fin 32) (b : Byte) : List (Fin 8) → State → State
  | [], s => s
  | c :: cols, s =>
    drawCols x0 py b cols (if spriteBit b c then drawPixel (wrapCol (x0 + c.val)) py s else s)

/-- Draw the given rows of the sprite at `I` whose top left cell is `(x0, y0)`; the first row out of bounds
raises, and the rows before it stay drawn (R141, R50; D10, log 14). -/
def drawRows (x0 y0 : Nat) : List Nat → State → State
  | [], s => s
  | r :: rows, s =>
    match memRead s (s.addrAt r) with
    | some b => drawRows x0 y0 rows (drawCols x0 (wrapRow (y0 + r)) b spriteCols s)
    | none => raise (.outOfBoundsAccess (s.addrAt r)) s

/-- The next byte of the input `RND` (R22): the host's next supplied byte, or a free value when it has supplied
none; log 3. -/
def nextRnd (s : State) : Byte :=
  match s.rndInput with
  | b :: _ => b
  | [] => Config.rnd s.rndDrawn

/-- One byte of `RND` has been consumed (R22, R122). -/
def consumeRnd (s : State) : State := { s with rndInput := s.rndInput.tail, rndDrawn := s.rndDrawn + 1 }

/-- The fetch of a STEP (R81): two bytes at `PC`, big-endian; `error` carries the address of the first read
that is out of bounds. -/
def fetch (s : State) : Except Nat Word :=
  match memRead s s.pc.toNat with
  | none => .error s.pc.toNat
  | some b0 =>
    match memRead s (s.pc.toNat + 1) with
    | none => .error (s.pc.toNat + 1)
    | some b1 => .ok (opcodeOf b0 b1)

/-- The state in which an instruction executes: the event has begun and `PC` is advanced (R82). -/
def enterExec (s : State) : State := advancePc (beginEvent s)

/-- Store a word where the next STEP fetches, and let it fetch: `MODE = Running`, and `PC = 0x200` if no word
can be fetched at `PC`; log 7. -/
def placeWord (op : Word) (s : State) : State :=
  let s := (s.setMode .running).setPc (if s.pc.toNat < Config.lastAddress then s.pc else 0x200)
  s.setMem ((s.mem.write s.pc.toNat (highByte op)).write (s.pc.toNat + 1) (lowByte op))

end Sys2Proof.Machine
end

