-- ==== Sys2Proof/Machine/ControlTransfer.lean ====
section
/-! DEFINITION. Control transfer: 00EE, 1nnn, 2nnn, Bnnn (spec/41_control_transfer.md). `PC` is already
advanced by 2 when a meaning starts (R82); no target is checked (R94; D12, log 15). -/

namespace Sys2Proof.Machine

/-- 00EE `RET` (R90). -/
def execRet (s : State) : Result :=
  match popPc s with
  | some t => .next t
  | none => .next (raise .stackUnderflow s)

/-- 1nnn `JP nnn` (R91). -/
def execJp (nnn : Addr12) (s : State) : Result := .next (s.setPc (addrImm nnn))

/-- 2nnn `CALL nnn` (R92). -/
def execCall (nnn : Addr12) (s : State) : Result :=
  match pushPc s with
  | some t => .next (t.setPc (addrImm nnn))
  | none => .next (raise .stackOverflow s)

/-- Bnnn `JP V0, nnn` (R93). -/
def execJpV0 (nnn : Addr12) (s : State) : Result := .next (s.setPc (jumpTarget s nnn))

end Sys2Proof.Machine
end

