-- ==== Sys2Proof/Machine/Display.lean ====
section
/-! DEFINITION. Display instructions: 00E0, Dxyn (spec/45_display.md), the only writers of `FB` (R142). -/

namespace Sys2Proof.Machine

/-- 00E0 `CLS`: VF is not written (R140). -/
def execCls (s : State) : Result := .next (s.setFb (Vector.replicate 32 0))

/-- Dxyn `DRW Vx, Vy, n` (R141): the coordinates are captured before VF is reset (D6, log 11); with `n = 0` only
VF is reset (D33, log 21). -/
def execDrw (x y : Reg) (n : Fin 16) (s : State) : Result :=
  .next (drawRows ((s.getV x).toNat % 64) ((s.getV y).toNat % 32) (List.range n.val) (s.setFlag false))

end Sys2Proof.Machine
end

