-- ==== Sys2Proof/Machine/IndexMemory.lean ====
section
/-! DEFINITION. Index register and memory instructions: Annn, Fx1E, Fx29, Fx33, Fx55, Fx65
(spec/44_index_memory.md). The last three leave `I` alone (D31, log 18). -/

namespace Sys2Proof.Machine

/-- Annn `LD I, nnn` (R130). -/
def execLdI (nnn : Addr12) (s : State) : Result := .next (s.setIndex (addrImm nnn))

/-- Fx1E `ADD I, Vx`: `I` modulo 65536, VF tested on the stored value (R131; D6, D8, log 11, log 13). -/
def execAddIVx (x : Reg) (s : State) : Result :=
  let sum := s.index + (s.getV x).setWidth 16
  .next ((s.setIndex sum).setFlag (indexAbove sum))

/-- Fx29 `LD F, Vx` (R132). -/
def execLdFVx (x : Reg) (s : State) : Result := .next (s.setIndex (glyphAddr (s.getV x)))

/-- Fx33 `LD B, Vx` (R133). -/
def execLdBVx (x : Reg) (s : State) : Result := .next (storeCells (s.bcdCells x) s)

/-- Fx55 `LD [I], Vx` (R134). -/
def execLdMemVx (x : Reg) (s : State) : Result := .next (storeCells (s.regCells x) s)

/-- Fx65 `LD Vx, [I]` (R135). -/
def execLdVxMem (x : Reg) (s : State) : Result := .next (loadRegs (regsUpTo x) s)

end Sys2Proof.Machine
end

