-- ==== Sys2Proof/Machine/KeypadTimers.lean ====
section
/-! DEFINITION. Keypad and timer instructions: Ex9E, ExA1, Fx07, Fx0A, Fx15, Fx18
(spec/46_keypad_timers.md). -/

namespace Sys2Proof.Machine

/-- Ex9E `SKP Vx` (R150). -/
def execSkp (x : Reg) (s : State) : Result := .next (skipIf (s.keyDown (keyNumber (s.getV x))) s)

/-- ExA1 `SKNP Vx` (R151). -/
def execSknp (x : Reg) (s : State) : Result := .next (skipIf (!s.keyDown (keyNumber (s.getV x))) s)

/-- Fx07 `LD Vx, DT` (R152). -/
def execLdVxDT (x : Reg) (s : State) : Result := .next (s.setV x s.dt)

/-- Fx0A `LD Vx, K`: a key held now is taken at once, else the machine waits; `PC` is not rewound
(R153, C11; D30, log 20). -/
def execLdVxK (x : Reg) (s : State) : Result :=
  match s.lowestKey with
  | some k => .next (s.setKeyNumber x k)
  | none => .next (s.setMode (.waitingForKey x))

/-- Fx15 `LD DT, Vx` (R154). -/
def execLdDTVx (x : Reg) (s : State) : Result := .next (s.setDT (s.getV x))

/-- Fx18 `LD ST, Vx` (R155). -/
def execLdSTVx (x : Reg) (s : State) : Result := .next (s.setST (s.getV x))

end Sys2Proof.Machine
end

