-- ==== Sys2Proof/Machine/LoadAlu.lean ====
section
/-! DEFINITION. Register load, add, arithmetic-logic unit and random: 6xkk, 7xkk, 8xy0 to 8xyE, Cxkk
(spec/43_load_alu.md). All arithmetic wraps modulo 256 (R110); 8xy0 to 8xy3 and 7xkk leave VF alone unless it is
the destination (R11; D32, log 18). -/

namespace Sys2Proof.Machine

/-- 6xkk `LD Vx, kk` (R111). -/
def execLdImm (x : Reg) (kk : Byte) (s : State) : Result := .next (s.setV x kk)

/-- 7xkk `ADD Vx, kk`: no flag (R112). -/
def execAddImm (x : Reg) (kk : Byte) (s : State) : Result := .next (s.setV x (s.getV x + kk))

/-- 8xy0 `LD Vx, Vy` (R113). -/
def execLdReg (x y : Reg) (s : State) : Result := .next (s.setV x (s.getV y))

/-- 8xy1 `OR Vx, Vy` (R114). -/
def execOrReg (x y : Reg) (s : State) : Result := .next (s.setV x (s.getV x ||| s.getV y))

/-- 8xy2 `AND Vx, Vy` (R115). -/
def execAndReg (x y : Reg) (s : State) : Result := .next (s.setV x (s.getV x &&& s.getV y))

/-- 8xy3 `XOR Vx, Vy` (R116). -/
def execXorReg (x y : Reg) (s : State) : Result := .next (s.setV x (s.getV x ^^^ s.getV y))

/-- 8xy4 `ADD Vx, Vy`: VF = carry (R117). -/
def execAddReg (x y : Reg) (s : State) : Result :=
  .next (s.setResultFlag x (s.getV x + s.getV y) (carryOut (s.getV x) (s.getV y)))

/-- 8xy5 `SUB Vx, Vy`: VF = no borrow (R118). -/
def execSubReg (x y : Reg) (s : State) : Result :=
  .next (s.setResultFlag x (s.getV x - s.getV y) (noBorrow (s.getV x) (s.getV y)))

/-- 8xy6 `SHR Vx`: `V[y]` is not read (R119; D24, log 18). -/
def execShr (x _y : Reg) (s : State) : Result :=
  .next (s.setResultFlag x (s.getV x >>> 1) (shiftedOutRight (s.getV x)))

/-- 8xy7 `SUBN Vx, Vy`: VF = no borrow of `V[y] - V[x]` (R120). -/
def execSubnReg (x y : Reg) (s : State) : Result :=
  .next (s.setResultFlag x (s.getV y - s.getV x) (noBorrow (s.getV y) (s.getV x)))

/-- 8xyE `SHL Vx`: `V[y]` is not read (R121; D24, log 18). -/
def execShl (x _y : Reg) (s : State) : Result :=
  .next (s.setResultFlag x (s.getV x <<< 1) (shiftedOutLeft (s.getV x)))

/-- Cxkk `RND Vx, kk`: one byte of `RND` is consumed, also when `kk` is 0 (R122; D19, log 3). -/
def execRnd (x : Reg) (kk : Byte) (s : State) : Result :=
  .next ((consumeRnd s).setV x (nextRnd s &&& kk))

end Sys2Proof.Machine
end

