-- ==== Sys2Proof/Machine/Skips.lean ====
section
/-! DEFINITION. Conditional skips on registers: 3xkk, 4xkk, 5xy0, 9xy0 (spec/42_skips.md). -/

namespace Sys2Proof.Machine

/-- 3xkk `SE Vx, kk` (R100). -/
def execSeImm (x : Reg) (kk : Byte) (s : State) : Result := .next (skipIf (s.getV x == kk) s)

/-- 4xkk `SNE Vx, kk` (R101). -/
def execSneImm (x : Reg) (kk : Byte) (s : State) : Result := .next (skipIf (s.getV x != kk) s)

/-- 5xy0 `SE Vx, Vy` (R102). -/
def execSeReg (x y : Reg) (s : State) : Result := .next (skipIf (s.getV x == s.getV y) s)

/-- 9xy0 `SNE Vx, Vy` (R103). -/
def execSneReg (x y : Reg) (s : State) : Result := .next (skipIf (s.getV x != s.getV y) s)

end Sys2Proof.Machine
end

