-- ==== Sys2Proof/Machine/Step.lean ====
section
/-! DEFINITION. The event STEP (spec/40_step_cycle.md R80). -/

namespace Sys2Proof.Machine

/-- One STEP (R80): a key poll in a key wait (R86); otherwise fetch (R81), advance `PC` (R82), decode (R83) and
execute. A failed fetch changes nothing but `ERR` (R81; D11, log 14); an unknown opcode only advances `PC`
(R84). The other events are in Machine/Events.lean; log 4. -/
def step (s : State) : Host.Outcome State Fault Refusal :=
  match s.mode with
  | .waitingForKey x => .next (keyPoll x (beginEvent s))
  | .running =>
    match fetch s with
    | .error addr => .next (raise (.outOfBoundsAccess addr) s)
    | .ok op =>
      match decodeWord op with
      | .error _ => .next (raise (.unknownOpcode op) (enterExec s))
      | .ok i => exec i (enterExec s)

/-- The state with the instruction word `w` stored where the next STEP fetches, so that it fetches and runs
exactly that word; log 7. -/
def State.withFetchWord (s : State) (nbits w : Nat) : State :=
  placeWord (BitVec.ofNat 16 (w % 2 ^ nbits)) s

end Sys2Proof.Machine
end

