-- ==== Sys2Proof/Machine/Events.lean ====
section
/-! DEFINITION. The host's side of the machine (spec/00_scope.md R4 to R6): the events RESET, LOAD, TICK and KEYS
beside STEP, runs as lists of events, the `RND` input, and the read ports (spec/60_exceptions.md,
spec/70_reset_and_hazards.md). -/

namespace Sys2Proof.Machine

/-- The five host events, and nothing else (R4). -/
inductive Event where
  | reset
  | load (bytes : List Byte)
  | step
  | tick
  | keys (k : Word)
  deriving DecidableEq, Repr

/-- RESET (R190) of a machine with the given `FONT`: every element of the block at its reset value; what the host
has supplied of the input `RND` is outside the block (R178) and stays; log 3, log 5. -/
def resetEvent (font : Config.Font) (s : State) : State :=
  { State.resetWithFont font with rndInput := s.rndInput, rndDrawn := s.rndDrawn }

/-- LOAD of a program that fits (R192, R194): the program region, `PC` and `MODE`, and nothing else
(D16, log 16). -/
def loadFits (bytes : List Byte) (s : State) : State :=
  ((s.setMem (s.mem.loadProgram bytes)).setPc (BitVec.ofNat 16 Config.progBase)).setMode .running

/-- LOAD (R192): a program of more than 3584 bytes raises `RomTooLarge` and changes nothing (R193). -/
def loadEvent (bytes : List Byte) (s : State) : State :=
  if romOk bytes then loadFits bytes (beginEvent s) else raise .romTooLarge s

/-- A timer's decrement, floored at 0 (R173). -/
def countDown (t : Byte) : Byte := if t = 0 then 0 else t - 1

/-- TICK (R173): both timers count down, in either mode (D29, log 20). -/
def tickEvent (s : State) : State :=
  ((beginEvent s).setDT (countDown s.dt)).setST (countDown s.st)

/-- KEYS(k) (R175): the whole keypad vector is replaced (D26, log 22), in either mode. -/
def keysEvent (k : Word) (s : State) : State := (beginEvent s).setKey k

/-- One event (R4) of a machine with the given `FONT`, which only RESET reads; log 4, log 5. -/
def handle (font : Config.Font) (e : Event) (s : State) : Result :=
  match e with
  | .reset => .next (resetEvent font s)
  | .load bytes => .next (loadEvent bytes s)
  | .step => step s
  | .tick => .next (tickEvent s)
  | .keys k => .next (keysEvent k s)

/-- A run: the events in the host's order (R4, R5; log 6). -/
def runEvents (font : Config.Font) : List Event → State → Result
  | [], s => .next s
  | e :: es, s =>
    match handle font e s with
    | .next t => runEvents font es t
    | .fault r => .fault r
    | .refused r => .refused r

/-- The host supplies bytes of the input `RND` ("injectable", R22); log 3. -/
def State.supplyRnd (s : State) (bytes : List Byte) : State :=
  { s with rndInput := s.rndInput ++ bytes }

/-- The read port for `FB`: 2048 cells, each 0 or 1, cell `x + 64*y` at that place (R19, R180). -/
def State.fbSnapshot (s : State) : List Nat :=
  (List.range 2048).map (fun i => (s.cell (wrapCol i) (wrapRow (i / 64))).toNat)

/-- The read port for `DT` (R180). -/
def State.readDT (s : State) : Byte := s.dt

/-- The read port for `ST` (R180). -/
def State.readST (s : State) : Byte := s.st

/-- The output `SOUND` (R174). -/
def State.sound (s : State) : Bool := decide (s.st.toNat > 0)

/-- A TICK with the sample of `SOUND` a host takes at it: before the decrement (R174; D18, log 22). -/
def tickWithSound (s : State) : Bool × State := (s.sound, tickEvent s)

end Sys2Proof.Machine
end

