-- ==== Sys2Proof/Safety.lean ====
section
/-! DEFINITION. The terms claims are made in: the elements of the state and what it is for only some of them to
change, the invariant of every reachable state, error-free runs, the end of a run, and the two tables the spec
gives for a whole STEP (its `PC'` and its error). -/

namespace Sys2Proof.Machine

/-- The elements of the state, one by one (spec/10_state.md), with `ERR` and the consumed part of `RND`. -/
inductive Element where
  | v (x : Reg)
  | index
  | pc
  | stack (k : Fin 16)
  | sp
  | dt
  | st
  | key
  | cell (px : Fin 64) (py : Fin 32)
  | mode
  | byte (addr : Nat)
  | err
  | rnd
  deriving DecidableEq, Repr

/-- The element has the same value in both states; memory byte by byte through `memRead`. -/
def Element.Same (s t : State) : Element → Prop
  | .v x => t.getV x = s.getV x
  | .index => t.index = s.index
  | .pc => t.pc = s.pc
  | .stack k => t.stack[k.val] = s.stack[k.val]
  | .sp => t.sp = s.sp
  | .dt => t.dt = s.dt
  | .st => t.st = s.st
  | .key => t.key = s.key
  | .cell px py => t.cell px py = s.cell px py
  | .mode => t.mode = s.mode
  | .byte a => memRead t a = memRead s a
  | .err => t.err = s.err
  | .rnd => t.rndInput = s.rndInput ∧ t.rndDrawn = s.rndDrawn

/-- Going from `s` to `t`, every element outside `W` keeps its value: the frame of an event. -/
def OnlyChanges (W : Element → Prop) (s t : State) : Prop := ∀ e, ¬ W e → e.Same s t

/-- The bytes that a list of cells stores to. -/
def StoredBytes (cells : List Host.Cell) (e : Element) : Prop := ∃ c ∈ cells, e = .byte c.1

/-- The values an error may record (R160): an offending address is 0x1000 to 0x1000E, an unknown opcode is no
row of the opcode map. -/
def Err.InRange : Err → Prop
  | .outOfBoundsAccess addr => 0x1000 ≤ addr ∧ addr ≤ 0x1000E
  | .unknownOpcode op => wordKnown op = false
  | .none | .stackOverflow | .stackUnderflow | .romTooLarge => True

/-- What holds of every reachable state: memory in canonical form, `PC` at most 0x10FE (R14), every stack entry
at most 0x1000 (R90), the recorded error value in its range (R160). `SP` in 0..16 and the widths hold by type. -/
structure State.Inv (s : State) : Prop where
  memWf : s.mem.wf = true
  pcBound : s.pc.toNat ≤ 0x10FE
  stackBound : ∀ k : Fin 16, (s.stack[k.val]).toNat ≤ 0x1000
  errRange : s.err.InRange

/-- The machine with the given `FONT` (R7): `core` is the one with the default table; log 5. -/
def machineWithFont (font : Config.Font) : Host.Core where
  State := State
  Fault := Fault
  Refusal := Refusal
  step := step
  reset := State.resetWithFont font

/-- The states that events lead to from RESET in the machine with the given `FONT`, with any `RND` bytes supplied
between them (R4 to R7). -/
inductive Reachable (font : Config.Font) : State → Prop where
  | reset : Reachable font (State.resetWithFont font)
  | event {e : Event} {s t : State} : Reachable font s → handle font e s = .next t → Reachable font t
  | supply {s : State} (bytes : List Byte) : Reachable font s → Reachable font (s.supplyRnd bytes)

/-- A run in which no event reports an error (R171: what a claim about a correct program assumes). -/
def ErrorFree (font : Config.Font) : List Event → State → Prop
  | [], _ => True
  | e :: es, s => ∃ t, handle font e s = .next t ∧ t.err = .none ∧ ErrorFree font es t

/-- The end of a run (R197; D27, log 23): `PC` holds the address of a jump to that address. -/
def State.atSelfJump (s : State) : Bool :=
  match s.mode, fetch s with
  | .running, .ok op =>
    match decodeWord op with
    | .ok (.jp nnn) => addrImm nnn == s.pc
    | _ => false
  | _, _ => false

/-- `PC` after a condition decides a skip (R87, R104). -/
def pcAfterSkip (c : Prop) [Decidable c] (s : State) : Word := if c then s.pc + 4 else s.pc + 2

/-- The table of R87 for a STEP that fetches instruction `i` in state `s`: the value of `PC` after it. -/
def pcAfter (i : Instr) (s : State) : Word :=
  match i with
  | .jp nnn => BitVec.ofNat 16 nnn.toNat
  | .call nnn => if s.sp.val = 16 then s.pc + 2 else BitVec.ofNat 16 nnn.toNat
  | .ret => if s.sp.val = 0 then s.pc + 2 else s.stack.toList.getD (s.sp.val - 1) 0
  | .jpV0 nnn => BitVec.ofNat 16 (nnn.toNat + (s.getV 0).toNat)
  | .seImm x kk => pcAfterSkip (s.getV x = kk) s
  | .sneImm x kk => pcAfterSkip (s.getV x ≠ kk) s
  | .seReg x y => pcAfterSkip (s.getV x = s.getV y) s
  | .sneReg x y => pcAfterSkip (s.getV x ≠ s.getV y) s
  | .skp x => pcAfterSkip (s.key.getLsbD ((s.getV x).toNat % 16) = true) s
  | .sknp x => pcAfterSkip (s.key.getLsbD ((s.getV x).toNat % 16) = false) s
  | _ => s.pc + 2

/-- The error of an instruction that accesses `n` bytes from `I` upward: the lowest address above 0xFFF, if any
(R50, R170). -/
def rangeErr (n : Nat) (s : State) : Err :=
  if 0 < n ∧ s.index.toNat + n > 0x1000 then .outOfBoundsAccess (max s.index.toNat 0x1000) else .none

/-- The error that an instruction reports, `.none` if it completes (R160, R161, R170). -/
def instrErr (i : Instr) (s : State) : Err :=
  match i with
  | .call _ => if s.sp.val = 16 then .stackOverflow else .none
  | .ret => if s.sp.val = 0 then .stackUnderflow else .none
  | .drw _ _ n => rangeErr n.val s
  | .ldBVx _ => rangeErr 3 s
  | .ldMemVx x | .ldVxMem x => rangeErr (x.val + 1) s
  | _ => .none

/-- The error that a STEP reports, in the order of R170: first byte, second byte, decode, instruction. -/
def stepErr (s : State) : Err :=
  match s.mode with
  | .waitingForKey _ => .none
  | .running =>
    if s.pc.toNat ≥ 0x1000 then .outOfBoundsAccess s.pc.toNat
    else if s.pc.toNat = 0xFFF then .outOfBoundsAccess 0x1000
    else
      let op := opcodeOf (s.mem.read s.pc.toNat) (s.mem.read (s.pc.toNat + 1))
      match decodeWord op with
      | .error _ => .unknownOpcode op
      | .ok i => instrErr i s

/-- The value of `PC` after a STEP, by the cases of R87: a key wait and a failed fetch leave it, an unknown opcode
advances it, an instruction follows its row. -/
def stepPc (s : State) : Word :=
  match s.mode with
  | .waitingForKey _ => s.pc
  | .running =>
    if s.pc.toNat ≥ 0xFFF then s.pc
    else
      match decodeWord (opcodeOf (s.mem.read s.pc.toNat) (s.mem.read (s.pc.toNat + 1))) with
      | .error _ => s.pc + 2
      | .ok i => pcAfter i s

/-- The number `n` is the opcode of instruction `i` (R61, R64: fields as numbers, fixed bits from the pattern). -/
def IsWordOf (n : Nat) (i : Instr) : Prop := decodeWord (BitVec.ofNat 16 n) = .ok i

/-- Calls made one after another, each with the given `PC` (the address after the call) and target. -/
def callAll : List (Word × Addr12) → State → Result
  | [], s => .next s
  | (pc, nnn) :: calls, s =>
    match exec (.call nnn) (s.setPc pc) with
    | .next t => callAll calls t
    | .fault r => .fault r
    | .refused r => .refused r

/-- The values of `PC` after each of `n` returns. -/
def returnPcs : Nat → State → List Word
  | 0, _ => []
  | n + 1, s =>
    match exec .ret s with
    | .next t => t.pc :: returnPcs n t
    | .fault _ | .refused _ => []

/-- How many of the next `n` TICKs find the sound timer running, sampled before the decrement (R174). -/
def soundingTicks : Nat → State → Nat
  | 0, _ => 0
  | n + 1, s => (if (tickWithSound s).1 then 1 else 0) + soundingTicks n (tickWithSound s).2

/-- The pixels a sprite lights (R141): row r is the byte at `I + r`, its bit 7 - c is at column
`(x0 + c) mod 64` and row `(y0 + r) mod 32`. -/
def SpriteLights (s : State) (x0 y0 n : Nat) (px : Fin 64) (py : Fin 32) : Prop :=
  ∃ r c b, r < n ∧ c < 8 ∧ memRead s (s.index.toNat + r) = some b ∧ b.getLsbD (7 - c) = true ∧
    px.val = (x0 + c) % 64 ∧ py.val = (y0 + r) % 32

end Sys2Proof.Machine
end

