-- ==== Sys2Proof/Certificates/Slice0/Obligations.lean ====
section
/-! DEFINITION. The statements for the provers, one `def Obligations.<Name> : Prop` each. "D<n>" is a decision of
spec/92_eei_decisions.md: a choice of the spec, not of its source; a statement that rests on one is derived and says
so. -/

open Sys2Proof Sys2Proof.Machine

/-! ## Encoding -/

/-- Decoding the two bytes of an instruction gives it back, with every operand at every value, and the rest of the
bytes (the formats of R62; sub-opcodes by D21 and D22, log 17). -/
def Obligations.EncodedInstructionDecodesBack : Prop :=
  ∀ (i : Instr) (rest : List Byte), decode (encodeBytes i ++ rest) = .ok (i, rest)

/-- A known word has no ignored bits: encoding what the decoder reads from it gives the word (R62). -/
def Obligations.DecodedWordEncodesBack : Prop :=
  ∀ (op : Word) (i : Instr), decodeWord op = .ok i → encode i = op

/-- The decoder follows the opcode map of R64: what it reads from a word is an instruction whose row matches the
word, it reads something from every word that a row matches, and no two rows match one word (exact matching is
D20). -/
def Obligations.DecoderFollowsOpcodeMap : Prop :=
  (∀ op i, decodeWord op = .ok i → i.row ∈ opcodeTable ∧ op &&& i.row.mask = i.row.value) ∧
  (∀ op, ∀ r ∈ opcodeTable, op &&& r.mask = r.value → ∃ i, decodeWord op = .ok i ∧ i.row = r) ∧
  (∀ op, ∀ r ∈ opcodeTable, ∀ q ∈ opcodeTable,
    op &&& r.mask = r.value → op &&& q.mask = q.value → r = q)

/-- The unknown opcodes are exactly the words of the table of R67, family by family (D20, log 17). -/
def Obligations.UnknownOpcodesByFamily : Prop :=
  ∀ op : Word, decodeWord op = .error (.unknownOpcode op) ↔
    (op.toNat / 4096 = 0x0 ∧ op.toNat ≠ 0x00E0 ∧ op.toNat ≠ 0x00EE) ∨
    (op.toNat / 4096 = 0x5 ∧ op.toNat % 16 ≠ 0) ∨
    (op.toNat / 4096 = 0x8 ∧ op.toNat % 16 ∈ [0x8, 0x9, 0xA, 0xB, 0xC, 0xD, 0xF]) ∨
    (op.toNat / 4096 = 0x9 ∧ op.toNat % 16 ≠ 0) ∨
    (op.toNat / 4096 = 0xE ∧ op.toNat % 256 ∉ [0x9E, 0xA1]) ∨
    (op.toNat / 4096 = 0xF ∧ op.toNat % 256 ∉ [0x07, 0x0A, 0x15, 0x18, 0x1E, 0x29, 0x33, 0x55, 0x65])

/-- Words of the spec's examples and vectors, as the instructions they stand for, one or more for each of the sixteen
families (high nibbles) 0 to F, and two unknown words (8124 and F207 by D21 and D22, 5AB1 by D20, log 17). -/
def Obligations.SampleWordsDecode : Prop :=
  decodeWord 0x00E0 = .ok .cls ∧ decodeWord 0x00EE = .ok .ret ∧ decodeWord 0x12A8 = .ok (.jp 0x2A8) ∧
  decodeWord 0x2210 = .ok (.call 0x210) ∧ decodeWord 0x4A01 = .ok (.sneImm 0xA 0x01) ∧
  decodeWord 0x5AB0 = .ok (.seReg 0xA 0xB) ∧ decodeWord 0x7105 = .ok (.addImm 1 0x05) ∧
  decodeWord 0x9AB0 = .ok (.sneReg 0xA 0xB) ∧ decodeWord 0xBFFF = .ok (.jpV0 0xFFF) ∧
  decodeWord 0x332A = .ok (.seImm 3 0x2A) ∧ decodeWord 0x6A7B = .ok (.ldImm 0xA 0x7B) ∧
  decodeWord 0x8124 = .ok (.addReg 1 2) ∧ decodeWord 0xA300 = .ok (.ldI 0x300) ∧
  decodeWord 0xC30F = .ok (.rnd 3 0x0F) ∧ decodeWord 0xD015 = .ok (.drw 0 1 5) ∧
  decodeWord 0xE49E = .ok (.skp 4) ∧ decodeWord 0xF207 = .ok (.ldVxDT 2) ∧ decodeWord 0xF255 = .ok (.ldMemVx 2) ∧
  decodeWord 0x0000 = .error (.unknownOpcode 0x0000) ∧ decodeWord 0x5AB1 = .error (.unknownOpcode 0x5AB1)

/-! ## The STEP cycle -/

/-- A STEP runs the decoded instruction: in mode `Running`, when the two bytes at `PC`, high byte first, decode to a
well-formed instruction, the STEP is its execution in the state with `PC` advanced by 2 and no error
(R80 to R83; that `ERR` starts as `None` is log 2). -/
def Obligations.StepRunsDecodedInstruction : Prop :=
  ∀ (s : State) (b0 b1 : Byte) (i : Instr), s.mode = .running →
    memRead s s.pc.toNat = some b0 → memRead s (s.pc.toNat + 1) = some b1 →
    decodeWord (BitVec.ofNat 16 (b0.toNat * 256 + b1.toNat)) = .ok i → i.wellFormed = true →
    step s = exec i { s with pc := s.pc + 2, err := .none }

/-- A fetch that is out of bounds ends the STEP with the address of the failing read; nothing else changes and `PC`
is not advanced (R81; the choice D11, log 14). -/
def Obligations.FailedFetchChangesNothing : Prop :=
  ∀ s : State, s.mode = .running → 0xFFF ≤ s.pc.toNat →
    step s = .next { s with
      err := .outOfBoundsAccess (if s.pc.toNat = 0xFFF then 0x1000 else s.pc.toNat) }

/-- R84: a fetched word that matches no row of the opcode map is reported, `PC` has advanced by 2, and nothing else
changes. -/
def Obligations.UnknownOpcodeOnlyAdvancesPc : Prop :=
  ∀ (s : State) (op : Word), s.mode = .running → fetch s = .ok op →
    (∀ r ∈ opcodeTable, op &&& r.mask ≠ r.value) →
    step s = .next { s with pc := s.pc + 2, err := .unknownOpcode op }

/-- The STEP of a key wait (R86): with a key pressed, the lowest pressed one goes to the latched register and the
machine runs again; with none pressed nothing changes; no error either way (that the wait tests a level is D30,
log 20; that `ERR` is `None` again is log 2). -/
def Obligations.KeyWaitPollsTheKeypad : Prop :=
  ∀ (s : State) (x : Reg), s.mode = .waitingForKey x →
    (∀ k : Fin 16, s.keyDown k = true → (∀ j, j < k → s.keyDown j = false) →
      ∃ t, step s = .next t ∧ (t.getV x).toNat = k.val ∧ t.mode = .running ∧ t.err = .none ∧
        OnlyChanges (fun e => e = .v x ∨ e = .mode ∨ e = .err) s t) ∧
    ((∀ k, s.keyDown k = false) → step s = .next { s with err := .none })

/-- A STEP is accepted in every state: it answers a next state, never a fault and never a refusal (R197, R167; that
errors are next states is log 1). -/
def Obligations.StepAlwaysAnswers : Prop := ∀ s : State, ∃ t, step s = .next t

/-- The table of R87: the value of `PC` after a STEP in every case, that of the key wait, of a failed fetch and of an
unknown opcode included. The choices in it are the spec's: the key that Ex9E and ExA1 test is named by the low four
bits of `V[x]` (D7, log 12), a failed fetch leaves `PC` (D11, log 14), and no target is checked (D12, log 15). -/
def Obligations.StepPcFollowsTheTable : Prop := ∀ s t : State, step s = .next t → t.pc = stepPc s

/-- The error of a STEP is the one of R160, in the order of R170, with the value R160 records, in every state: a
closed form of who raises what and when (unmasked addresses by D9, partial accesses by D10, fetch by D11, log 14; the
recorded values by D15, log 22; that `ERR` is `None` when there is no error is log 2). -/
def Obligations.StepReportsItsError : Prop := ∀ s t : State, step s = .next t → t.err = stepErr s

/-- The result of an earlier event does not alter a STEP: no record of past errors is kept (R23, R88). -/
def Obligations.PastErrorsDoNotMatter : Prop := ∀ (s : State) (e : Err), step (s.setErr e) = step s

/-! ## Invariants -/

/-- The state after RESET meets the invariant, with the default `FONT` and with every other (log 5). -/
def Obligations.ResetMeetsInvariant : Prop :=
  State.reset.Inv ∧ ∀ font : Config.Font, (State.resetWithFont font).Inv

/-- Every STEP keeps the invariant: canonical memory, `PC` at most 0x10FE (so it never wraps, R14), stack entries at
most 0x1000 (R90), the recorded error value in its range (R160). -/
def Obligations.StepKeepsInvariant : Prop := ∀ s t : State, s.Inv → step s = .next t → t.Inv

/-- Every state that events lead to from RESET meets the invariant, for every `FONT`, programs being loaded by LOAD and
the host interleaving TICK and KEYS as it likes (R4, R5, R7, R14). -/
def Obligations.ReachableStatesMeetInvariant : Prop :=
  ∀ (font : Config.Font) (s : State), Reachable font s → s.Inv

/-! ## Memory -/

/-- R45: a write of one byte inside memory changes that byte and no other; outside it raises
`OutOfBoundsAccess(addr)` and memory is unchanged (memory in canonical form, log 8). -/
def Obligations.SingleByteWrite : Prop :=
  ∀ (s : State) (a : Nat) (b : Byte), s.mem.wf = true →
    (a ≤ 0xFFF → memRead (storeCells [(a, b)] s) a = some b ∧
      OnlyChanges (· = .byte a) s (storeCells [(a, b)] s)) ∧
    (0xFFF < a → storeCells [(a, b)] s = { s with err := .outOfBoundsAccess a })

/-- A word placed for the next STEP is fetched and run by it: the machine's load interface (log 7). -/
def Obligations.PlacedWordIsRun : Prop :=
  ∀ (s : State) (w : Nat) (i : Instr), s.mem.wf = true → decodeTableWord 16 w = some i →
    step (s.withFetchWord 16 w) = exec i (enterExec (s.withFetchWord 16 w))

/-! ## Whole-machine rules -/

/-- Each store is changed by its own instructions only (the write column of R57, with R13, R17, R18, R20): memory by
Fx33 and Fx55, the frame buffer by 00E0 and Dxyn, the stack by 2nnn and 00EE, the keypad by none, `DT` by Fx15,
`ST` by Fx18, `I` by Annn, Fx1E, Fx29, `MODE` by Fx0A. -/
def Obligations.StoresHaveTheirOwnWriters : Prop :=
  ∀ (i : Instr) (s t : State), exec i s = .next t →
    ((∃ a, memRead t a ≠ memRead s a) → (∃ x, i = .ldBVx x) ∨ ∃ x, i = .ldMemVx x) ∧
    ((∃ px py, t.cell px py ≠ s.cell px py) → i = .cls ∨ ∃ x y n, i = .drw x y n) ∧
    ((t.sp ≠ s.sp ∨ ∃ k : Fin 16, t.stack[k.val] ≠ s.stack[k.val]) → i = .ret ∨ ∃ nnn, i = .call nnn) ∧
    t.key = s.key ∧
    (t.dt ≠ s.dt → ∃ x, i = .ldDTVx x) ∧
    (t.st ≠ s.st → ∃ x, i = .ldSTVx x) ∧
    (t.index ≠ s.index → (∃ nnn, i = .ldI nnn) ∨ (∃ x, i = .addIVx x) ∨ ∃ x, i = .ldFVx x) ∧
    (t.mode ≠ s.mode → ∃ x, i = .ldVxK x)

/-- VF changes only by the seven instructions of R11, which leave it 0 or 1, or as the plain destination of another
one (that 8xy0 to 8xy3 leave it alone is D32, log 18; that a flag is written after the result is D6, log 11). -/
def Obligations.FlagRegisterWriters : Prop :=
  ∀ (i : Instr) (s t : State), exec i s = .next t → t.getV 0xF ≠ s.getV 0xF →
    (((∃ x y, i = .addReg x y) ∨ (∃ x y, i = .subReg x y) ∨ (∃ x y, i = .shr x y) ∨ (∃ x y, i = .subnReg x y) ∨
      (∃ x y, i = .shl x y) ∨ (∃ x y n, i = .drw x y n) ∨ (∃ x, i = .addIVx x)) ∧
      (t.getV 0xF = 0 ∨ t.getV 0xF = 1)) ∨
    (∃ kk, i = .ldImm 0xF kk) ∨ (∃ kk, i = .addImm 0xF kk) ∨ (∃ y, i = .ldReg 0xF y) ∨ (∃ y, i = .orReg 0xF y) ∨
    (∃ y, i = .andReg 0xF y) ∨ (∃ y, i = .xorReg 0xF y) ∨ (∃ kk, i = .rnd 0xF kk) ∨ i = .ldVxDT 0xF ∨
    i = .ldVxK 0xF ∨ i = .ldVxMem 0xF

/-- What a program cannot see stays unseen: two states that differ only in `ST` and in stack entries at or above
`SP` step to states that differ only in `ST` and in stack entries at or above the new `SP` (R16, R27; that a pop
leaves its entry is D25, log 19). -/
def Obligations.UnobservableStateStaysUnobservable : Prop :=
  ∀ (s t u : State) (b : Byte) (stack : Vector Word 16),
    (∀ k : Fin 16, k.val < s.sp.val → stack[k.val] = s.stack[k.val]) →
    step s = .next t → step { s with st := b, stack := stack } = .next u →
    OnlyChanges (fun e => e = .st ∨ ∃ k : Fin 16, t.sp.val ≤ k.val ∧ e = .stack k) t u

/-- The key wait is entered only by a STEP that executes Fx0A with no key down, and left only by a STEP that finds a
key pressed, by LOAD or by RESET (R179). -/
def Obligations.KeyWaitIsEnteredAndLeft : Prop :=
  ∀ (font : Config.Font) (e : Event) (s t : State) (x : Reg), handle font e s = .next t →
    (s.mode = .running → t.mode = .waitingForKey x →
      e = .step ∧ (∀ k, s.keyDown k = false) ∧ ∃ op, fetch s = .ok op ∧ decodeWord op = .ok (.ldVxK x)) ∧
    (s.mode = .waitingForKey x → t.mode ≠ .waitingForKey x →
      t.mode = .running ∧ ((e = .step ∧ ∃ k, s.keyDown k = true) ∨ e = .reset ∨
        ∃ bytes, e = .load bytes ∧ bytes.length ≤ 3584))

/-- One byte of `RND` is consumed by each STEP that executes Cxkk, and none by any other event (R6, R122, D19; the form
of the input is the model's own, log 3). -/
def Obligations.OnlyRndConsumesRandomBytes : Prop :=
  ∀ (font : Config.Font) (e : Event) (s t : State), handle font e s = .next t →
    ((e = .step ∧ s.mode = .running ∧ ∃ op x kk, fetch s = .ok op ∧ decodeWord op = .ok (.rnd x kk)) →
      t.rndInput = s.rndInput.tail ∧ t.rndDrawn = s.rndDrawn + 1) ∧
    (¬ (e = .step ∧ s.mode = .running ∧ ∃ op x kk, fetch s = .ok op ∧ decodeWord op = .ok (.rnd x kk)) →
      t.rndInput = s.rndInput ∧ t.rndDrawn = s.rndDrawn)

/-! ## Host events -/

/-- R24: after RESET every element has the value of the table, for every value of the parameter `FONT`. -/
def Obligations.ResetValues : Prop :=
  ∀ font : Config.Font,
    let s := (machineWithFont font).reset
    (∀ x, s.getV x = 0) ∧ s.index = 0 ∧ s.pc = 0 ∧ (∀ k : Fin 16, s.stack[k.val] = 0) ∧ s.sp.val = 0 ∧
    s.dt = 0 ∧ s.st = 0 ∧ (∀ k, s.keyDown k = false) ∧ (∀ px py, s.cell px py = false) ∧ s.mode = .running ∧
    (∀ (a : Nat) (h : a < 80), memRead s a = some font[a]) ∧
    (∀ a, 80 ≤ a → a ≤ 0xFFF → memRead s a = some 0)

/-- `State.reset`, the reset state of `core`, is that of the default `FONT` (the model's choice of a value for the
parameter: D3, log 5). The event RESET gives the reset state with the machine's `FONT`, whatever the state before, a
loaded program, an overwritten font and a key wait included (R190; that it may come at any time is D2, log 7; that it
leaves `ERR` at `None` is log 2); the host's `RND` input is outside the block and stays (D19, log 3). -/
def Obligations.ResetDiscardsEverything : Prop :=
  State.reset = State.resetWithFont Config.defaultFont ∧
  ∀ (font : Config.Font) (s : State), ∃ t, handle font .reset s = .next t ∧
    OnlyChanges (· = .rnd) (State.resetWithFont font) t ∧ Element.Same s t .rnd

/-- A LOAD of at most 3584 bytes places them from 0x200, zeros the rest of the program region, sets `PC` to 0x200
and `MODE` to `Running`, and changes nothing else (R192, R194; the reload is D16, any length D17, log 16). -/
def Obligations.LoadPlacesTheProgram : Prop :=
  ∀ (font : Config.Font) (s : State) (bytes : List Byte), bytes.length ≤ 3584 →
    ∃ t, handle font (.load bytes) s = .next t ∧ t.pc = 0x200 ∧ t.mode = .running ∧ t.err = .none ∧
      (∀ (i : Nat) (h : i < bytes.length), memRead t (0x200 + i) = some bytes[i]) ∧
      (∀ a, 0x200 + bytes.length ≤ a → a ≤ 0xFFF → memRead t a = some 0) ∧
      OnlyChanges (fun e => e = .pc ∨ e = .mode ∨ e = .err ∨ ∃ a, 0x200 ≤ a ∧ e = .byte a) s t

/-- A LOAD of more than 3584 bytes fails with `RomTooLarge` and changes nothing, `PC` and `MODE` included (R193;
D34, log 16). -/
def Obligations.TooLargeProgramIsRefused : Prop :=
  ∀ (font : Config.Font) (s : State) (bytes : List Byte), 3584 < bytes.length →
    handle font (.load bytes) s = .next { s with err := .romTooLarge }

/-- R173: a TICK takes 1 from each timer that is above 0, independently, and changes no other element of the state, in
either mode. -/
def Obligations.TickCountsDown : Prop :=
  ∀ (font : Config.Font) (s : State), ∃ t, handle font .tick s = .next t ∧ t.dt.toNat = s.dt.toNat - 1 ∧
    t.st.toNat = s.st.toNat - 1 ∧
    OnlyChanges (fun e => e = .dt ∨ e = .st ∨ e = .err) s t

/-- KEYS(k) replaces the whole keypad vector and changes nothing else, in either mode (R175; D26 and D29, log 22 and
log 20). -/
def Obligations.KeysReplaceTheVector : Prop :=
  ∀ (font : Config.Font) (s : State) (k : Word), ∃ t, handle font (.keys k) s = .next t ∧
    (∀ j : Fin 16, t.keyDown j = k.getLsbD j.val) ∧
    OnlyChanges (fun e => e = .key ∨ e = .err) s t

/-- A sound timer of N gives N sounding TICKs, sampled before each decrement, and silence after (R174; D18,
log 22). -/
def Obligations.SoundLastsAsLongAsTheTimer : Prop :=
  ∀ (s : State) (n : Nat), s.st.toNat ≤ n → soundingTicks n s = s.st.toNat

/-- At a jump to its own address the machine stays: every further STEP leaves all state unchanged (R91, R197; that
this is the end of a run is D27, log 23; that `ERR` is `None` is log 2). -/
def Obligations.SelfJumpStaysForEver : Prop :=
  ∀ (s : State) (n : Nat), s.atSelfJump = true →
    Host.Core.run Sys2Proof.core (n + 1) s = .next { s with err := .none }

/-! ## Control transfer -/

/-- R91: 1nnn sets `PC` to nnn, zero-extended, whatever nnn is, and changes nothing else. -/
def Obligations.JumpSetsPc : Prop :=
  ∀ (s : State) (nnn : Addr12), IsWordOf (0x1000 + nnn.toNat) (.jp nnn) ∧
    ∃ t, exec (.jp nnn) s = .next t ∧ t.pc.toNat = nnn.toNat ∧ OnlyChanges (· = .pc) s t

/-- Bnnn: `PC` becomes `nnn + V[0]`, not truncated and not checked (R93; that a bad target is no error is D12,
log 15). -/
def Obligations.JumpOffsetAddsV0 : Prop :=
  ∀ (s : State) (nnn : Addr12), IsWordOf (0xB000 + nnn.toNat) (.jpV0 nnn) ∧
    ∃ t, exec (.jpV0 nnn) s = .next t ∧ t.pc.toNat = nnn.toNat + (s.getV 0).toNat ∧ OnlyChanges (· = .pc) s t

/-- R92: 2nnn pushes `PC` and jumps; with the stack full it reports `StackOverflow` and does nothing else. The `PC` of
the meaning is the advanced one, so a STEP of 2nnn pushes its address plus 2. -/
def Obligations.CallPushesAndJumps : Prop :=
  ∀ (s : State) (nnn : Addr12), IsWordOf (0x2000 + nnn.toNat) (.call nnn) ∧
    (∀ k : Fin 16, k.val = s.sp.val →
      ∃ t, exec (.call nnn) s = .next t ∧ t.stack[k.val] = s.pc ∧ t.sp.val = s.sp.val + 1 ∧
        t.pc.toNat = nnn.toNat ∧ OnlyChanges (fun e => e = .stack k ∨ e = .sp ∨ e = .pc) s t) ∧
    (s.sp.val = 16 → exec (.call nnn) s = .next { s with err := .stackOverflow }) ∧
    (∀ (op : Word) (k : Fin 16), s.mode = .running → fetch s = .ok op → decodeWord op = .ok (.call nnn) →
      k.val = s.sp.val → ∃ t, step s = .next t ∧ t.stack[k.val] = s.pc + 2)

/-- 00EE pops `PC`; with the stack empty it reports `StackUnderflow` and does nothing else (R90; that the popped
entry stays in the stack is D25, log 19). -/
def Obligations.ReturnPopsPc : Prop :=
  IsWordOf 0x00EE .ret ∧ ∀ s : State,
    (∀ k : Fin 16, k.val + 1 = s.sp.val →
      ∃ t, exec .ret s = .next t ∧ t.pc = s.stack[k.val] ∧ t.sp.val = k.val ∧
        OnlyChanges (fun e => e = .sp ∨ e = .pc) s t) ∧
    (s.sp.val = 0 → exec .ret s = .next { s with err := .stackUnderflow })

/-- Nested calls within the stack's depth all complete, and as many returns restore the `PC` values of the calls,
last in first out (example S4 of spec/95_test_vectors.md, R90, R92). -/
def Obligations.CallsReturnLastInFirstOut : Prop :=
  ∀ (calls : List (Word × Addr12)) (s : State), s.sp.val + calls.length ≤ 16 →
    ∃ t, callAll calls s = .next t ∧ t.sp.val = s.sp.val + calls.length ∧
      returnPcs calls.length t = (calls.map Prod.fst).reverse

/-! ## Skips -/

/-- R100 and R101: 3xkk and 4xkk add 2 to `PC` when `V[x]` equals, or does not equal, the immediate. -/
def Obligations.ImmediateSkips : Prop :=
  ∀ (s : State) (x : Reg) (kk : Byte),
    IsWordOf (0x3000 + 256 * x.val + kk.toNat) (.seImm x kk) ∧
    IsWordOf (0x4000 + 256 * x.val + kk.toNat) (.sneImm x kk) ∧
    (∃ t, exec (.seImm x kk) s = .next t ∧
      t.pc = (if (s.getV x).toNat = kk.toNat then s.pc + 2 else s.pc) ∧ OnlyChanges (· = .pc) s t) ∧
    (∃ t, exec (.sneImm x kk) s = .next t ∧
      t.pc = (if (s.getV x).toNat = kk.toNat then s.pc else s.pc + 2) ∧ OnlyChanges (· = .pc) s t)

/-- 5xy0 and 9xy0 add 2 to `PC` when `V[x]` and `V[y]` are equal, or differ; with a low nibble other than 0 the words
are unknown (R102, R103; exact matching is D20, log 17). -/
def Obligations.RegisterSkips : Prop :=
  ∀ (s : State) (x y : Reg),
    (∀ n, n < 16 → n ≠ 0 → (∀ i, ¬ IsWordOf (0x5000 + 256 * x.val + 16 * y.val + n) i) ∧
      ∀ i, ¬ IsWordOf (0x9000 + 256 * x.val + 16 * y.val + n) i) ∧
    IsWordOf (0x5000 + 256 * x.val + 16 * y.val) (.seReg x y) ∧
    IsWordOf (0x9000 + 256 * x.val + 16 * y.val) (.sneReg x y) ∧
    (∃ t, exec (.seReg x y) s = .next t ∧
      t.pc = (if (s.getV x).toNat = (s.getV y).toNat then s.pc + 2 else s.pc) ∧ OnlyChanges (· = .pc) s t) ∧
    (∃ t, exec (.sneReg x y) s = .next t ∧
      t.pc = (if (s.getV x).toNat = (s.getV y).toNat then s.pc else s.pc + 2) ∧ OnlyChanges (· = .pc) s t)

/-- Ex9E and ExA1 add 2 to `PC` when the key that the low four bits of `V[x]` name is pressed, or is not (R150,
R151; the low four bits are D7, log 12). -/
def Obligations.KeySkips : Prop :=
  ∀ (s : State) (x : Reg),
    IsWordOf (0xE09E + 256 * x.val) (.skp x) ∧ IsWordOf (0xE0A1 + 256 * x.val) (.sknp x) ∧
    (∃ t, exec (.skp x) s = .next t ∧
      t.pc = (if s.key.getLsbD ((s.getV x).toNat % 16) = true then s.pc + 2 else s.pc) ∧
      OnlyChanges (· = .pc) s t) ∧
    (∃ t, exec (.sknp x) s = .next t ∧
      t.pc = (if s.key.getLsbD ((s.getV x).toNat % 16) = true then s.pc else s.pc + 2) ∧
      OnlyChanges (· = .pc) s t)

/-! ## Load, arithmetic, logic, random -/

/-- R111 and R112: 6xkk loads the immediate, 7xkk adds it modulo 256; neither writes a flag. -/
def Obligations.ImmediateLoadAndAdd : Prop :=
  ∀ (s : State) (x : Reg) (kk : Byte),
    IsWordOf (0x6000 + 256 * x.val + kk.toNat) (.ldImm x kk) ∧
    IsWordOf (0x7000 + 256 * x.val + kk.toNat) (.addImm x kk) ∧
    (∃ t, exec (.ldImm x kk) s = .next t ∧ t.getV x = kk ∧ OnlyChanges (· = .v x) s t) ∧
    (∃ t, exec (.addImm x kk) s = .next t ∧ (t.getV x).toNat = ((s.getV x).toNat + kk.toNat) % 256 ∧
      OnlyChanges (· = .v x) s t)

/-- 8xy0 to 8xy3 write `V[y]`, or the bitwise or, and, exclusive or of `V[x]` and `V[y]`, to `V[x]` and nothing else
(R113 to R116; the sub-opcodes are D21, log 17, and VF left alone is D32, log 18). -/
def Obligations.AssignAndLogic : Prop :=
  ∀ (s : State) (x y : Reg),
    IsWordOf (0x8000 + 256 * x.val + 16 * y.val) (.ldReg x y) ∧
    IsWordOf (0x8001 + 256 * x.val + 16 * y.val) (.orReg x y) ∧
    IsWordOf (0x8002 + 256 * x.val + 16 * y.val) (.andReg x y) ∧
    IsWordOf (0x8003 + 256 * x.val + 16 * y.val) (.xorReg x y) ∧
    (∃ t, exec (.ldReg x y) s = .next t ∧ t.getV x = s.getV y ∧ OnlyChanges (· = .v x) s t) ∧
    (∃ t, exec (.orReg x y) s = .next t ∧
      (∀ b, b < 8 → (t.getV x).getLsbD b = ((s.getV x).getLsbD b || (s.getV y).getLsbD b)) ∧
      OnlyChanges (· = .v x) s t) ∧
    (∃ t, exec (.andReg x y) s = .next t ∧
      (∀ b, b < 8 → (t.getV x).getLsbD b = ((s.getV x).getLsbD b && (s.getV y).getLsbD b)) ∧
      OnlyChanges (· = .v x) s t) ∧
    (∃ t, exec (.xorReg x y) s = .next t ∧
      (∀ b, b < 8 → (t.getV x).getLsbD b = ((s.getV x).getLsbD b != (s.getV y).getLsbD b)) ∧
      OnlyChanges (· = .v x) s t)

/-- 8xy4: the sum modulo 256 to `V[x]`, the carry to VF; with x = 0xF VF ends as the carry (R117; the order is D6,
log 11, the sub-opcode D21, log 17). -/
def Obligations.AddSetsCarry : Prop :=
  ∀ (s : State) (x y : Reg), IsWordOf (0x8004 + 256 * x.val + 16 * y.val) (.addReg x y) ∧
    ∃ t, exec (.addReg x y) s = .next t ∧
      (x ≠ 0xF → (t.getV x).toNat = ((s.getV x).toNat + (s.getV y).toNat) % 256) ∧
      (t.getV 0xF).toNat = (if (s.getV x).toNat + (s.getV y).toNat > 255 then 1 else 0) ∧
      OnlyChanges (fun e => e = .v x ∨ e = .v 0xF) s t

/-- 8xy5 and 8xy7: the difference modulo 256 to `V[x]`, 1 to VF when there is no borrow, the equal case included;
with x = 0xF VF ends as the flag (R118, R120; the order is D6, log 11, the sub-opcodes D21, log 17). -/
def Obligations.SubtractSetsNoBorrow : Prop :=
  ∀ (s : State) (x y : Reg),
    IsWordOf (0x8005 + 256 * x.val + 16 * y.val) (.subReg x y) ∧
    IsWordOf (0x8007 + 256 * x.val + 16 * y.val) (.subnReg x y) ∧
    (∃ t, exec (.subReg x y) s = .next t ∧
      (x ≠ 0xF → (t.getV x).toNat = ((s.getV x).toNat + 256 - (s.getV y).toNat) % 256) ∧
      (t.getV 0xF).toNat = (if (s.getV x).toNat ≥ (s.getV y).toNat then 1 else 0) ∧
      OnlyChanges (fun e => e = .v x ∨ e = .v 0xF) s t) ∧
    (∃ t, exec (.subnReg x y) s = .next t ∧
      (x ≠ 0xF → (t.getV x).toNat = ((s.getV y).toNat + 256 - (s.getV x).toNat) % 256) ∧
      (t.getV 0xF).toNat = (if (s.getV y).toNat ≥ (s.getV x).toNat then 1 else 0) ∧
      OnlyChanges (fun e => e = .v x ∨ e = .v 0xF) s t)

/-- 8xy6 and 8xyE: `V[x]` halved, or doubled modulo 256, and the bit shifted out to VF, for every `y`; with x = 0xF
VF ends as the bit (R119, R121; the order is D6, log 11, `y` ignored D24, log 18, the sub-opcodes D21, log 17). -/
def Obligations.ShiftsSetShiftedOutBit : Prop :=
  ∀ (s : State) (x y : Reg),
    IsWordOf (0x8006 + 256 * x.val + 16 * y.val) (.shr x y) ∧
    IsWordOf (0x800E + 256 * x.val + 16 * y.val) (.shl x y) ∧
    (∃ t, exec (.shr x y) s = .next t ∧ (x ≠ 0xF → (t.getV x).toNat = (s.getV x).toNat / 2) ∧
      (t.getV 0xF).toNat = (s.getV x).toNat % 2 ∧ OnlyChanges (fun e => e = .v x ∨ e = .v 0xF) s t) ∧
    (∃ t, exec (.shl x y) s = .next t ∧ (x ≠ 0xF → (t.getV x).toNat = 2 * (s.getV x).toNat % 256) ∧
      (t.getV 0xF).toNat = (s.getV x).toNat / 128 ∧ OnlyChanges (fun e => e = .v x ∨ e = .v 0xF) s t)

/-- Cxkk: one byte of `RND` is consumed and `V[x]` becomes it and the immediate; a byte the host supplied is the one
used, and every bit that is 0 in the immediate is 0 in `V[x]` (R122; where the byte comes from is D19, log 3). -/
def Obligations.RandomByteIsMasked : Prop :=
  ∀ (s : State) (x : Reg) (kk : Byte), IsWordOf (0xC000 + 256 * x.val + kk.toNat) (.rnd x kk) ∧
    ∃ t, exec (.rnd x kk) s = .next t ∧ t.rndInput = s.rndInput.tail ∧ t.rndDrawn = s.rndDrawn + 1 ∧
      (∀ b rest, s.rndInput = b :: rest → t.getV x = b &&& kk) ∧
      (s.rndInput = [] → t.getV x = Config.rnd s.rndDrawn &&& kk) ∧
      (∀ j, kk.getLsbD j = false → (t.getV x).getLsbD j = false) ∧
      OnlyChanges (fun e => e = .v x ∨ e = .rnd) s t

/-! ## Index register and memory instructions -/

/-- R130 and R132: Annn loads `I` with the immediate, Fx29 with the address of a glyph. -/
def Obligations.IndexLoads : Prop :=
  ∀ (s : State) (nnn : Addr12) (x : Reg),
    IsWordOf (0xA000 + nnn.toNat) (.ldI nnn) ∧ IsWordOf (0xF029 + 256 * x.val) (.ldFVx x) ∧
    (∃ t, exec (.ldI nnn) s = .next t ∧ t.index.toNat = nnn.toNat ∧ OnlyChanges (· = .index) s t) ∧
    (∃ t, exec (.ldFVx x) s = .next t ∧ t.index.toNat = 5 * ((s.getV x).toNat % 16) ∧
      OnlyChanges (· = .index) s t)

/-- Fx1E: the sum modulo 65536 to `I`, and VF tells whether the new `I` is above 0xFFF (R131; modulo and test on the
stored value are D8, log 13, `V[x]` read before VF is written D6, log 11). -/
def Obligations.AddToIndexFlagsOverflow : Prop :=
  ∀ (s : State) (x : Reg), IsWordOf (0xF01E + 256 * x.val) (.addIVx x) ∧
    ∃ t, exec (.addIVx x) s = .next t ∧ t.index.toNat = (s.index.toNat + (s.getV x).toNat) % 65536 ∧
      (t.getV 0xF).toNat = (if t.index.toNat > 0xFFF then 1 else 0) ∧
      OnlyChanges (fun e => e = .index ∨ e = .v 0xF) s t

/-- Fx33 inside memory: the three decimal digits of `V[x]`, most significant first, at `I`, `I+1`, `I+2`, and
nothing else (R133; `I` left alone is D31, log 18). -/
def Obligations.DecimalDigitsAreStored : Prop :=
  ∀ (s : State) (x : Reg), s.mem.wf = true → s.index.toNat + 2 ≤ 0xFFF →
    IsWordOf (0xF033 + 256 * x.val) (.ldBVx x) ∧
    ∃ t h d o, exec (.ldBVx x) s = .next t ∧ memRead t s.index.toNat = some h ∧
      memRead t (s.index.toNat + 1) = some d ∧ memRead t (s.index.toNat + 2) = some o ∧
      100 * h.toNat + 10 * d.toNat + o.toNat = (s.getV x).toNat ∧ d.toNat ≤ 9 ∧ o.toNat ≤ 9 ∧
      OnlyChanges (StoredBytes (s.bcdCells x)) s t

/-- Fx55 inside memory: `V[0]` to `V[x]`, x inclusive, at `I` upward, and nothing else (R134; `I` left alone is D31,
log 18). -/
def Obligations.RegistersAreStored : Prop :=
  ∀ (s : State) (x : Reg), s.mem.wf = true → s.index.toNat + x.val ≤ 0xFFF →
    IsWordOf (0xF055 + 256 * x.val) (.ldMemVx x) ∧
    ∃ t, exec (.ldMemVx x) s = .next t ∧
      (∀ r, r ≤ x → memRead t (s.index.toNat + r.val) = some (s.getV r)) ∧
      OnlyChanges (StoredBytes (s.regCells x)) s t

/-- Fx33 and Fx55 that run past 0xFFF: the bytes inside memory are stored, the lowest address above 0xFFF is
reported, and nothing else changes (R50; D10, log 14). -/
def Obligations.StoresStopAtTheEndOfMemory : Prop :=
  ∀ (s : State) (x : Reg), s.mem.wf = true →
    (0xFFF < s.index.toNat + 2 → ∃ t, exec (.ldBVx x) s = .next t ∧
      t.err = .outOfBoundsAccess (max s.index.toNat 0x1000) ∧
      (s.index.toNat ≤ 0xFFF → memRead t s.index.toNat = some (hundreds (s.getV x))) ∧
      (s.index.toNat + 1 ≤ 0xFFF → memRead t (s.index.toNat + 1) = some (tens (s.getV x))) ∧
      OnlyChanges (fun e => e = .err ∨ ∃ c ∈ s.bcdCells x, c.1 ≤ 0xFFF ∧ e = .byte c.1) s t) ∧
    (0xFFF < s.index.toNat + x.val → ∃ t, exec (.ldMemVx x) s = .next t ∧
      t.err = .outOfBoundsAccess (max s.index.toNat 0x1000) ∧
      (∀ r, r ≤ x → s.index.toNat + r.val ≤ 0xFFF → memRead t (s.index.toNat + r.val) = some (s.getV r)) ∧
      OnlyChanges (fun e => e = .err ∨ ∃ c ∈ s.regCells x, c.1 ≤ 0xFFF ∧ e = .byte c.1) s t)

/-- Fx65 inside memory: `V[0]` to `V[x]`, x inclusive, from `I` upward, and nothing else (R135; `I` left alone is
D31, log 18). -/
def Obligations.RegistersAreLoaded : Prop :=
  ∀ (s : State) (x : Reg), s.index.toNat + x.val ≤ 0xFFF →
    IsWordOf (0xF065 + 256 * x.val) (.ldVxMem x) ∧
    ∃ t, exec (.ldVxMem x) s = .next t ∧
      (∀ r, r ≤ x → some (t.getV r) = memRead s (s.index.toNat + r.val)) ∧
      OnlyChanges (fun e => ∃ r, r ≤ x ∧ e = .v r) s t

/-- Fx65 that runs past 0xFFF: the registers whose bytes are inside memory are loaded, the lowest address above 0xFFF
is reported, and nothing else changes (R50, R135; D10, log 14). -/
def Obligations.LoadsStopAtTheEndOfMemory : Prop :=
  ∀ (s : State) (x : Reg), 0xFFF < s.index.toNat + x.val →
    ∃ t, exec (.ldVxMem x) s = .next t ∧ t.err = .outOfBoundsAccess (max s.index.toNat 0x1000) ∧
      (∀ r, r ≤ x → s.index.toNat + r.val ≤ 0xFFF → some (t.getV r) = memRead s (s.index.toNat + r.val)) ∧
      OnlyChanges (fun e => e = .err ∨ ∃ r, r ≤ x ∧ s.index.toNat + r.val ≤ 0xFFF ∧ e = .v r) s t

/-- Fx55 and then Fx65 with the same `I`, over the memory that Fx55 left and any registers: the stored registers come
back (example S6 of spec/95_test_vectors.md, R134, R135). -/
def Obligations.StoreLoadRoundTrip : Prop :=
  ∀ (s t u : State) (x : Reg), s.mem.wf = true → s.index.toNat + x.val ≤ 0xFFF →
    exec (.ldMemVx x) s = .next t → u.mem = t.mem → u.index = s.index →
    ∃ w, exec (.ldVxMem x) u = .next w ∧ ∀ r, w.getV r = if r ≤ x then s.getV r else u.getV r

/-! ## Display -/

/-- R140: 00E0 clears all 2048 cells and changes nothing else; VF is not written. -/
def Obligations.ClearScreen : Prop :=
  IsWordOf 0x00E0 .cls ∧ ∀ s : State, ∃ t, exec .cls s = .next t ∧ (∀ px py, t.cell px py = false) ∧
    OnlyChanges (fun e => ∃ px py, e = .cell px py) s t

/-- Dxyn with all its rows inside memory: exactly the cells that the sprite lights are inverted, VF is 1 when one of
them was 1 and else 0, and nothing else changes; with n = 0 only VF is reset (R141; wrap D4 and bit order D5, log 10,
coordinates captured before VF is reset D6, log 11, `I` left alone D31, log 18, n = 0 D33, log 21). That VF is 0 when
every lit cell was 0, also for the second of two equal draws, follows R141's pseudocode against the wording of its
corner case: log 24. -/
def Obligations.DrawInvertsTheSpritesCells : Prop :=
  ∀ (s : State) (x y : Reg) (n : Fin 16), (n.val = 0 ∨ s.index.toNat + n.val ≤ 0x1000) →
    IsWordOf (0xD000 + 256 * x.val + 16 * y.val + n.val) (.drw x y n) ∧
    ∃ t, exec (.drw x y n) s = .next t ∧
      (∀ px py, (SpriteLights s ((s.getV x).toNat % 64) ((s.getV y).toNat % 32) n.val px py →
          t.cell px py = !s.cell px py) ∧
        (¬ SpriteLights s ((s.getV x).toNat % 64) ((s.getV y).toNat % 32) n.val px py →
          t.cell px py = s.cell px py)) ∧
      ((∃ px py, SpriteLights s ((s.getV x).toNat % 64) ((s.getV y).toNat % 32) n.val px py ∧
        s.cell px py = true) → t.getV 0xF = 1) ∧
      ((∀ px py, SpriteLights s ((s.getV x).toNat % 64) ((s.getV y).toNat % 32) n.val px py →
        s.cell px py = false) → t.getV 0xF = 0) ∧
      OnlyChanges (fun e => e = .v 0xF ∨ ∃ px py, e = .cell px py) s t

/-- Dxyn that runs past 0xFFF: it is the draw of the rows inside memory, and then the lowest address above 0xFFF is
reported (R141, R50; D10, log 14). -/
def Obligations.DrawStopsAtTheEndOfMemory : Prop :=
  ∀ (s : State) (x y : Reg) (m n : Fin 16), m < n → s.index.toNat + m.val = max s.index.toNat 0x1000 →
    ∃ t, exec (.drw x y m) s = .next t ∧ exec (.drw x y n) s = .next { t with
      err := .outOfBoundsAccess (max s.index.toNat 0x1000) }

/-- Drawing the same sprite twice at the same place restores the frame buffer, in every state, also when the sprite
runs past 0xFFF and both draws report it (R141; wrap D4 and bit order D5, log 10; partial draws D10, log 14; `I` left alone D31, log 18). The
registers x and y are not VF: the first draw writes VF, so the second would not be at the same place. -/
def Obligations.DrawTwiceRestoresTheScreen : Prop :=
  ∀ (s t u : State) (x y : Reg) (n : Fin 16), x ≠ 0xF → y ≠ 0xF →
    exec (.drw x y n) s = .next t → exec (.drw x y n) t = .next u → ∀ px py, u.cell px py = s.cell px py

/-! ## Keypad and timers -/

/-- Fx07 reads the delay timer into `V[x]` and changes nothing else (R152; the pattern's operation is D22,
log 17). -/
def Obligations.DelayTimerIsRead : Prop :=
  ∀ (s : State) (x : Reg), IsWordOf (0xF007 + 256 * x.val) (.ldVxDT x) ∧
    ∃ t, exec (.ldVxDT x) s = .next t ∧ t.getV x = s.dt ∧ OnlyChanges (· = .v x) s t

/-- Fx15 and Fx18 write `V[x]` to the delay timer and to the sound timer, and change nothing else (R154, R155; the
patterns' operations are D22, log 17). -/
def Obligations.TimersAreWritten : Prop :=
  ∀ (s : State) (x : Reg), IsWordOf (0xF015 + 256 * x.val) (.ldDTVx x) ∧ IsWordOf (0xF018 + 256 * x.val) (.ldSTVx x) ∧
    (∃ t, exec (.ldDTVx x) s = .next t ∧ t.dt = s.getV x ∧ OnlyChanges (· = .dt) s t) ∧
    (∃ t, exec (.ldSTVx x) s = .next t ∧ t.st = s.getV x ∧ OnlyChanges (· = .st) s t)

/-- Fx0A: with a key down the lowest one goes to `V[x]` at once; with none down the machine waits with `x` latched;
nothing else changes and `PC` is not rewound (R153; that the level counts is D30, log 20). -/
def Obligations.WaitForKeyTakesTheLowest : Prop :=
  ∀ (s : State) (x : Reg), IsWordOf (0xF00A + 256 * x.val) (.ldVxK x) ∧
    (∀ k : Fin 16, s.keyDown k = true → (∀ j, j < k → s.keyDown j = false) →
      ∃ t, exec (.ldVxK x) s = .next t ∧ (t.getV x).toNat = k.val ∧ OnlyChanges (· = .v x) s t) ∧
    ((∀ k, s.keyDown k = false) →
      ∃ t, exec (.ldVxK x) s = .next t ∧ t.mode = .waitingForKey x ∧ OnlyChanges (· = .mode) s t)
end

