-- ==== Sys2Proof/Laws/Decode.lean ====
section
/-! SUPPORT. Small lemmas of the encoding: the fields of the words that the formats build and their fixed bits
under the masks of the opcode map, the fields of an opcode put together again, and that the operand types make
every instruction well formed. -/

namespace Sys2Proof

/-- Every instruction is well formed: every value of every operand field is legal (R63). -/
theorem Instr.wellFormed_all (i : Instr) : i.wellFormed = true := by
  cases i <;> simp [Instr.wellFormed, regNumberOk, rowCountOk, byteImmOk, addrImmOk] <;> omega

section Fields

variable (fam : BitVec 4) (nnn : Addr12) (x y : Reg) (kk : Byte) (n : BitVec 4)

@[simp] theorem fieldFam_wordA : fieldFam (wordA fam nnn) = fam :=
  BitVec.extractLsb'_append_eq_left (a := fam) (b := nnn)

@[simp] theorem fieldNNN_wordA : fieldNNN (wordA fam nnn) = nnn :=
  BitVec.extractLsb'_append_eq_right (a := fam) (b := nnn)

@[simp] theorem fieldFam_wordXK : fieldFam (wordXK fam x kk) = fam :=
  (BitVec.extractLsb'_append_eq_of_le (xhi := fam ++ (BitVec.ofFin x : BitVec 4)) (xlo := kk) (start := 12)
    (by decide)).trans BitVec.extractLsb'_append_eq_left

@[simp] theorem fieldX_wordXK : fieldX (wordXK fam x kk) = x :=
  congrArg BitVec.toFin <|
    (BitVec.extractLsb'_append_eq_of_le (xhi := fam ++ (BitVec.ofFin x : BitVec 4)) (xlo := kk) (start := 8)
      (by decide)).trans BitVec.extractLsb'_append_eq_right

@[simp] theorem fieldKK_wordXK : fieldKK (wordXK fam x kk) = kk :=
  BitVec.extractLsb'_append_eq_right (a := fam ++ (BitVec.ofFin x : BitVec 4)) (b := kk)

/-- Above the low nibble, a format XYN word is a format with an 8-bit tail. -/
theorem extract_wordXYN {start len : Nat} (h : 4 ≤ start) :
    (wordXYN fam x y n).extractLsb' start len =
      (fam ++ (BitVec.ofFin x : BitVec 4) ++ (BitVec.ofFin y : BitVec 4)).extractLsb' (start - 4) len :=
  BitVec.extractLsb'_append_eq_of_le
    (xhi := fam ++ (BitVec.ofFin x : BitVec 4) ++ (BitVec.ofFin y : BitVec 4)) (xlo := n) h

@[simp] theorem fieldFam_wordXYN : fieldFam (wordXYN fam x y n) = fam :=
  (extract_wordXYN fam x y n (by decide)).trans <|
    (BitVec.extractLsb'_append_eq_of_le (xhi := fam ++ (BitVec.ofFin x : BitVec 4))
      (xlo := (BitVec.ofFin y : BitVec 4)) (start := 8) (by decide)).trans BitVec.extractLsb'_append_eq_left

@[simp] theorem fieldX_wordXYN : fieldX (wordXYN fam x y n) = x :=
  congrArg BitVec.toFin <| (extract_wordXYN fam x y n (by decide)).trans <|
    (BitVec.extractLsb'_append_eq_of_le (xhi := fam ++ (BitVec.ofFin x : BitVec 4))
      (xlo := (BitVec.ofFin y : BitVec 4)) (start := 4) (by decide)).trans BitVec.extractLsb'_append_eq_right

@[simp] theorem fieldY_wordXYN : fieldY (wordXYN fam x y n) = y :=
  congrArg BitVec.toFin <| (extract_wordXYN fam x y n (by decide)).trans <|
    BitVec.extractLsb'_append_eq_right (a := fam ++ (BitVec.ofFin x : BitVec 4)) (b := (BitVec.ofFin y : BitVec 4))

@[simp] theorem fieldN_wordXYN : fieldN (wordXYN fam x y n) = n.toFin :=
  congrArg BitVec.toFin <| BitVec.extractLsb'_append_eq_right
    (a := fam ++ (BitVec.ofFin x : BitVec 4) ++ (BitVec.ofFin y : BitVec 4)) (b := n)

theorem and_ones4 : n &&& 0xF#4 = n := BitVec.and_allOnes

theorem and_ones8 : kk &&& 0xFF#8 = kk := BitVec.and_allOnes

/-- Masking a format A word to its family. -/
theorem wordA_mask : wordA fam nnn &&& 0xF000 = wordA fam 0 := by
  refine (BitVec.and_append (x₁ := fam) (x₂ := 0xF#4) (y₁ := nnn) (y₂ := 0#12)).trans ?_
  rw [and_ones4, BitVec.and_zero]; rfl

/-- Masking a format XK word: the family and the register nibble, then the low byte. -/
theorem wordXK_and (m1 m2 : BitVec 4) (m3 : Byte) :
    wordXK fam x kk &&& (m1 ++ m2 ++ m3 : Word) =
      (fam &&& m1) ++ ((BitVec.ofFin x : BitVec 4) &&& m2) ++ (kk &&& m3) := by
  refine (BitVec.and_append (x₁ := fam ++ (BitVec.ofFin x : BitVec 4)) (x₂ := m1 ++ m2)).trans ?_
  rw [BitVec.and_append]

/-- Masking a format XK word to its family. -/
theorem wordXK_mask_fam : wordXK fam x kk &&& 0xF000 = wordXK fam 0 0 := by
  refine (wordXK_and fam x kk 0xF#4 0#4 0#8).trans ?_
  rw [and_ones4, BitVec.and_zero, BitVec.and_zero]; rfl

/-- Masking a format X word to its family and low byte. -/
theorem wordXK_mask : wordXK fam x kk &&& 0xF0FF = wordXK fam 0 kk := by
  refine (wordXK_and fam x kk 0xF#4 0#4 0xFF#8).trans ?_
  rw [and_ones4, BitVec.and_zero, and_ones8]; rfl

/-- Masking a format XYN word, nibble by nibble. -/
theorem wordXYN_and (m1 m2 m3 m4 : BitVec 4) :
    wordXYN fam x y n &&& (m1 ++ m2 ++ m3 ++ m4 : Word) =
      (fam &&& m1) ++ ((BitVec.ofFin x : BitVec 4) &&& m2) ++ ((BitVec.ofFin y : BitVec 4) &&& m3) ++
        (n &&& m4) := by
  refine (BitVec.and_append (x₁ := fam ++ (BitVec.ofFin x : BitVec 4) ++ (BitVec.ofFin y : BitVec 4))
    (x₂ := m1 ++ m2 ++ m3)).trans ?_
  rw [BitVec.and_append, BitVec.and_append]

/-- Masking a format XY word to its family and low nibble. -/
theorem wordXYN_mask : wordXYN fam x y n &&& 0xF00F = wordXYN fam 0 0 n := by
  refine (wordXYN_and fam x y n 0xF#4 0#4 0#4 0xF#4).trans ?_
  rw [and_ones4, BitVec.and_zero, BitVec.and_zero, and_ones4]; rfl

/-- Masking a format XYN word to its family. -/
theorem wordXYN_mask_fam : wordXYN fam x y n &&& 0xF000 = wordXYN fam 0 0 0 := by
  refine (wordXYN_and fam x y n 0xF#4 0#4 0#4 0#4).trans ?_
  rw [and_ones4, BitVec.and_zero, BitVec.and_zero, BitVec.and_zero]; rfl

end Fields

section Rebuild

variable (op : Word)

/-- A word is its family and its `nnn`. -/
theorem wordA_fields : wordA (fieldFam op) (fieldNNN op) = op := by
  simp only [wordA, fieldFam, fieldNNN]
  rw [BitVec.extractLsb'_append_extractLsb'_eq_extractLsb' (by rfl)]
  exact BitVec.extractLsb'_eq_self

/-- A word is its family, its `x` and its `kk`. -/
theorem wordXK_fields : wordXK (fieldFam op) (fieldX op) (fieldKK op) = op := by
  simp only [wordXK, fieldFam, fieldX, fieldKK]
  erw [BitVec.extractLsb'_append_extractLsb'_eq_extractLsb' (by rfl),
    BitVec.extractLsb'_append_extractLsb'_eq_extractLsb' (by rfl)]
  exact BitVec.extractLsb'_eq_self

/-- A word is its four nibbles. -/
theorem wordXYN_fields :
    wordXYN (fieldFam op) (fieldX op) (fieldY op) (BitVec.ofFin (fieldN op)) = op := by
  simp only [wordXYN, fieldFam, fieldX, fieldY, fieldN]
  erw [BitVec.extractLsb'_append_extractLsb'_eq_extractLsb' (by rfl),
    BitVec.extractLsb'_append_extractLsb'_eq_extractLsb' (by rfl),
    BitVec.extractLsb'_append_extractLsb'_eq_extractLsb' (by rfl)]
  exact BitVec.extractLsb'_eq_self

/-- The bytes of a word, put together big-endian, are the word (R47). -/
@[simp] theorem opcodeOf_bytes : opcodeOf (highByte op) (lowByte op) = op := by
  simp only [opcodeOf, highByte, lowByte]
  rw [BitVec.extractLsb'_append_extractLsb'_eq_extractLsb' (by rfl)]
  exact BitVec.extractLsb'_eq_self

end Rebuild

/-- A fetched opcode as a number: high byte first (R47). -/
theorem opcodeOf_toNat (b0 b1 : Byte) : (opcodeOf b0 b1).toNat = b0.toNat * 256 + b1.toNat := by
  rw [opcodeOf, BitVec.toNat_append, ← Nat.shiftLeft_add_eq_or_of_lt b1.isLt, Nat.shiftLeft_eq]

theorem toNat_append_pow {m n : Nat} (a : BitVec m) (b : BitVec n) : (a ++ b).toNat = a.toNat * 2 ^ n + b.toNat := by
  rw [BitVec.toNat_append, ← Nat.shiftLeft_add_eq_or_of_lt b.isLt, Nat.shiftLeft_eq]

/-- A format A word as a number. -/
theorem wordA_toNat (fam : BitVec 4) (nnn : Addr12) :
    (wordA fam nnn).toNat = fam.toNat * 4096 + nnn.toNat := toNat_append_pow fam nnn

/-- A format XK word as a number. -/
theorem wordXK_toNat (fam : BitVec 4) (x : Reg) (kk : Byte) :
    (wordXK fam x kk).toNat = fam.toNat * 4096 + x.val * 256 + kk.toNat := by
  have h1 := toNat_append_pow (fam ++ (BitVec.ofFin x : BitVec 4)) kk
  have h2 := toNat_append_pow fam (BitVec.ofFin x : BitVec 4)
  have h3 : (wordXK fam x kk).toNat = (fam ++ (BitVec.ofFin x : BitVec 4) ++ kk).toNat := rfl
  simp only [BitVec.toNat_ofFin] at h2
  omega

/-- A format XYN word as a number. -/
theorem wordXYN_toNat (fam : BitVec 4) (x y : Reg) (n : BitVec 4) :
    (wordXYN fam x y n).toNat = fam.toNat * 4096 + x.val * 256 + y.val * 16 + n.toNat := by
  have h0 := toNat_append_pow (fam ++ (BitVec.ofFin x : BitVec 4) ++ (BitVec.ofFin y : BitVec 4)) n
  have h1 := toNat_append_pow (fam ++ (BitVec.ofFin x : BitVec 4)) (BitVec.ofFin y : BitVec 4)
  have h2 := toNat_append_pow fam (BitVec.ofFin x : BitVec 4)
  have h3 : (wordXYN fam x y n).toNat =
      (fam ++ (BitVec.ofFin x : BitVec 4) ++ (BitVec.ofFin y : BitVec 4) ++ n).toNat := rfl
  simp only [BitVec.toNat_ofFin] at h1 h2
  omega

/-- The fields of a word as numbers. -/
theorem word_toNat (op : Word) : op.toNat =
    (fieldFam op).toNat * 4096 + (fieldX op).val * 256 + (fieldY op).val * 16 + (fieldN op).val := by
  conv_lhs => rw [← wordXYN_fields op, wordXYN_toNat]
  simp

theorem fieldKK_toNat (op : Word) : (fieldKK op).toNat = (fieldY op).val * 16 + (fieldN op).val := by
  have h1 := word_toNat op
  have h2 : op.toNat = (fieldFam op).toNat * 4096 + (fieldX op).val * 256 + (fieldKK op).toNat := by
    conv_lhs => rw [← wordXK_fields op, wordXK_toNat]
  omega

/-- What the decoder answers for a word it reads from two bytes. -/
theorem decode_bytes {op : Word} {i : Instr} (h : decodeWord op = .ok i) (rest : List Byte) :
    decode (highByte op :: lowByte op :: rest) = .ok (i, rest) := by
  simp [decode, h]

end Sys2Proof
end

