-- ==== Sys2Proof/Laws/State.lean ====
section
/-! SUPPORT. One lemma per field of the state per update, true by `rfl`, and the same for the accessors that read
one field: no later proof unfolds a record update. -/

namespace Sys2Proof.Machine

variable (s : State)

@[simp] theorem setV_index (x : Reg) (b : Byte) : (s.setV x b).index = s.index := rfl
@[simp] theorem setV_pc (x : Reg) (b : Byte) : (s.setV x b).pc = s.pc := rfl
@[simp] theorem setV_stack (x : Reg) (b : Byte) : (s.setV x b).stack = s.stack := rfl
@[simp] theorem setV_sp (x : Reg) (b : Byte) : (s.setV x b).sp = s.sp := rfl
@[simp] theorem setV_dt (x : Reg) (b : Byte) : (s.setV x b).dt = s.dt := rfl
@[simp] theorem setV_st (x : Reg) (b : Byte) : (s.setV x b).st = s.st := rfl
@[simp] theorem setV_key (x : Reg) (b : Byte) : (s.setV x b).key = s.key := rfl
@[simp] theorem setV_fb (x : Reg) (b : Byte) : (s.setV x b).fb = s.fb := rfl
@[simp] theorem setV_mode (x : Reg) (b : Byte) : (s.setV x b).mode = s.mode := rfl
@[simp] theorem setV_mem (x : Reg) (b : Byte) : (s.setV x b).mem = s.mem := rfl
@[simp] theorem setV_err (x : Reg) (b : Byte) : (s.setV x b).err = s.err := rfl
@[simp] theorem setV_rndInput (x : Reg) (b : Byte) : (s.setV x b).rndInput = s.rndInput := rfl
@[simp] theorem setV_rndDrawn (x : Reg) (b : Byte) : (s.setV x b).rndDrawn = s.rndDrawn := rfl
@[simp] theorem setV_addrAt (x : Reg) (b : Byte) (off : Nat) : (s.setV x b).addrAt off = s.addrAt off := rfl
@[simp] theorem setV_keyDown (x : Reg) (b : Byte) (k : Fin 16) : (s.setV x b).keyDown k = s.keyDown k := rfl
@[simp] theorem setV_cell (x : Reg) (b : Byte) (px : Fin 64) (py : Fin 32) : (s.setV x b).cell px py = s.cell px py := rfl
@[simp] theorem setV_lowestKey (x : Reg) (b : Byte) : (s.setV x b).lowestKey = s.lowestKey := rfl
@[simp] theorem setV_memRead (x : Reg) (b : Byte) (a : Nat) : memRead (s.setV x b) a = memRead s a := rfl

@[simp] theorem setIndex_v (w : Word) : (s.setIndex w).v = s.v := rfl
@[simp] theorem setIndex_index (w : Word) : (s.setIndex w).index = w := rfl
@[simp] theorem setIndex_pc (w : Word) : (s.setIndex w).pc = s.pc := rfl
@[simp] theorem setIndex_stack (w : Word) : (s.setIndex w).stack = s.stack := rfl
@[simp] theorem setIndex_sp (w : Word) : (s.setIndex w).sp = s.sp := rfl
@[simp] theorem setIndex_dt (w : Word) : (s.setIndex w).dt = s.dt := rfl
@[simp] theorem setIndex_st (w : Word) : (s.setIndex w).st = s.st := rfl
@[simp] theorem setIndex_key (w : Word) : (s.setIndex w).key = s.key := rfl
@[simp] theorem setIndex_fb (w : Word) : (s.setIndex w).fb = s.fb := rfl
@[simp] theorem setIndex_mode (w : Word) : (s.setIndex w).mode = s.mode := rfl
@[simp] theorem setIndex_mem (w : Word) : (s.setIndex w).mem = s.mem := rfl
@[simp] theorem setIndex_err (w : Word) : (s.setIndex w).err = s.err := rfl
@[simp] theorem setIndex_rndInput (w : Word) : (s.setIndex w).rndInput = s.rndInput := rfl
@[simp] theorem setIndex_rndDrawn (w : Word) : (s.setIndex w).rndDrawn = s.rndDrawn := rfl
@[simp] theorem setIndex_getV (w : Word) (r : Reg) : (s.setIndex w).getV r = s.getV r := rfl
@[simp] theorem setIndex_keyDown (w : Word) (k : Fin 16) : (s.setIndex w).keyDown k = s.keyDown k := rfl
@[simp] theorem setIndex_cell (w : Word) (px : Fin 64) (py : Fin 32) : (s.setIndex w).cell px py = s.cell px py := rfl
@[simp] theorem setIndex_lowestKey (w : Word) : (s.setIndex w).lowestKey = s.lowestKey := rfl
@[simp] theorem setIndex_memRead (w : Word) (a : Nat) : memRead (s.setIndex w) a = memRead s a := rfl

@[simp] theorem setPc_v (w : Word) : (s.setPc w).v = s.v := rfl
@[simp] theorem setPc_index (w : Word) : (s.setPc w).index = s.index := rfl
@[simp] theorem setPc_pc (w : Word) : (s.setPc w).pc = w := rfl
@[simp] theorem setPc_stack (w : Word) : (s.setPc w).stack = s.stack := rfl
@[simp] theorem setPc_sp (w : Word) : (s.setPc w).sp = s.sp := rfl
@[simp] theorem setPc_dt (w : Word) : (s.setPc w).dt = s.dt := rfl
@[simp] theorem setPc_st (w : Word) : (s.setPc w).st = s.st := rfl
@[simp] theorem setPc_key (w : Word) : (s.setPc w).key = s.key := rfl
@[simp] theorem setPc_fb (w : Word) : (s.setPc w).fb = s.fb := rfl
@[simp] theorem setPc_mode (w : Word) : (s.setPc w).mode = s.mode := rfl
@[simp] theorem setPc_mem (w : Word) : (s.setPc w).mem = s.mem := rfl
@[simp] theorem setPc_err (w : Word) : (s.setPc w).err = s.err := rfl
@[simp] theorem setPc_rndInput (w : Word) : (s.setPc w).rndInput = s.rndInput := rfl
@[simp] theorem setPc_rndDrawn (w : Word) : (s.setPc w).rndDrawn = s.rndDrawn := rfl
@[simp] theorem setPc_getV (w : Word) (r : Reg) : (s.setPc w).getV r = s.getV r := rfl
@[simp] theorem setPc_addrAt (w : Word) (off : Nat) : (s.setPc w).addrAt off = s.addrAt off := rfl
@[simp] theorem setPc_keyDown (w : Word) (k : Fin 16) : (s.setPc w).keyDown k = s.keyDown k := rfl
@[simp] theorem setPc_cell (w : Word) (px : Fin 64) (py : Fin 32) : (s.setPc w).cell px py = s.cell px py := rfl
@[simp] theorem setPc_lowestKey (w : Word) : (s.setPc w).lowestKey = s.lowestKey := rfl
@[simp] theorem setPc_memRead (w : Word) (a : Nat) : memRead (s.setPc w) a = memRead s a := rfl

@[simp] theorem setDT_v (b : Byte) : (s.setDT b).v = s.v := rfl
@[simp] theorem setDT_index (b : Byte) : (s.setDT b).index = s.index := rfl
@[simp] theorem setDT_pc (b : Byte) : (s.setDT b).pc = s.pc := rfl
@[simp] theorem setDT_stack (b : Byte) : (s.setDT b).stack = s.stack := rfl
@[simp] theorem setDT_sp (b : Byte) : (s.setDT b).sp = s.sp := rfl
@[simp] theorem setDT_dt (b : Byte) : (s.setDT b).dt = b := rfl
@[simp] theorem setDT_st (b : Byte) : (s.setDT b).st = s.st := rfl
@[simp] theorem setDT_key (b : Byte) : (s.setDT b).key = s.key := rfl
@[simp] theorem setDT_fb (b : Byte) : (s.setDT b).fb = s.fb := rfl
@[simp] theorem setDT_mode (b : Byte) : (s.setDT b).mode = s.mode := rfl
@[simp] theorem setDT_mem (b : Byte) : (s.setDT b).mem = s.mem := rfl
@[simp] theorem setDT_err (b : Byte) : (s.setDT b).err = s.err := rfl
@[simp] theorem setDT_rndInput (b : Byte) : (s.setDT b).rndInput = s.rndInput := rfl
@[simp] theorem setDT_rndDrawn (b : Byte) : (s.setDT b).rndDrawn = s.rndDrawn := rfl
@[simp] theorem setDT_getV (b : Byte) (r : Reg) : (s.setDT b).getV r = s.getV r := rfl
@[simp] theorem setDT_addrAt (b : Byte) (off : Nat) : (s.setDT b).addrAt off = s.addrAt off := rfl
@[simp] theorem setDT_keyDown (b : Byte) (k : Fin 16) : (s.setDT b).keyDown k = s.keyDown k := rfl
@[simp] theorem setDT_cell (b : Byte) (px : Fin 64) (py : Fin 32) : (s.setDT b).cell px py = s.cell px py := rfl
@[simp] theorem setDT_lowestKey (b : Byte) : (s.setDT b).lowestKey = s.lowestKey := rfl
@[simp] theorem setDT_memRead (b : Byte) (a : Nat) : memRead (s.setDT b) a = memRead s a := rfl

@[simp] theorem setST_v (b : Byte) : (s.setST b).v = s.v := rfl
@[simp] theorem setST_index (b : Byte) : (s.setST b).index = s.index := rfl
@[simp] theorem setST_pc (b : Byte) : (s.setST b).pc = s.pc := rfl
@[simp] theorem setST_stack (b : Byte) : (s.setST b).stack = s.stack := rfl
@[simp] theorem setST_sp (b : Byte) : (s.setST b).sp = s.sp := rfl
@[simp] theorem setST_dt (b : Byte) : (s.setST b).dt = s.dt := rfl
@[simp] theorem setST_st (b : Byte) : (s.setST b).st = b := rfl
@[simp] theorem setST_key (b : Byte) : (s.setST b).key = s.key := rfl
@[simp] theorem setST_fb (b : Byte) : (s.setST b).fb = s.fb := rfl
@[simp] theorem setST_mode (b : Byte) : (s.setST b).mode = s.mode := rfl
@[simp] theorem setST_mem (b : Byte) : (s.setST b).mem = s.mem := rfl
@[simp] theorem setST_err (b : Byte) : (s.setST b).err = s.err := rfl
@[simp] theorem setST_rndInput (b : Byte) : (s.setST b).rndInput = s.rndInput := rfl
@[simp] theorem setST_rndDrawn (b : Byte) : (s.setST b).rndDrawn = s.rndDrawn := rfl
@[simp] theorem setST_getV (b : Byte) (r : Reg) : (s.setST b).getV r = s.getV r := rfl
@[simp] theorem setST_addrAt (b : Byte) (off : Nat) : (s.setST b).addrAt off = s.addrAt off := rfl
@[simp] theorem setST_keyDown (b : Byte) (k : Fin 16) : (s.setST b).keyDown k = s.keyDown k := rfl
@[simp] theorem setST_cell (b : Byte) (px : Fin 64) (py : Fin 32) : (s.setST b).cell px py = s.cell px py := rfl
@[simp] theorem setST_lowestKey (b : Byte) : (s.setST b).lowestKey = s.lowestKey := rfl
@[simp] theorem setST_memRead (b : Byte) (a : Nat) : memRead (s.setST b) a = memRead s a := rfl

@[simp] theorem setKey_v (k : Word) : (s.setKey k).v = s.v := rfl
@[simp] theorem setKey_index (k : Word) : (s.setKey k).index = s.index := rfl
@[simp] theorem setKey_pc (k : Word) : (s.setKey k).pc = s.pc := rfl
@[simp] theorem setKey_stack (k : Word) : (s.setKey k).stack = s.stack := rfl
@[simp] theorem setKey_sp (k : Word) : (s.setKey k).sp = s.sp := rfl
@[simp] theorem setKey_dt (k : Word) : (s.setKey k).dt = s.dt := rfl
@[simp] theorem setKey_st (k : Word) : (s.setKey k).st = s.st := rfl
@[simp] theorem setKey_key (k : Word) : (s.setKey k).key = k := rfl
@[simp] theorem setKey_fb (k : Word) : (s.setKey k).fb = s.fb := rfl
@[simp] theorem setKey_mode (k : Word) : (s.setKey k).mode = s.mode := rfl
@[simp] theorem setKey_mem (k : Word) : (s.setKey k).mem = s.mem := rfl
@[simp] theorem setKey_err (k : Word) : (s.setKey k).err = s.err := rfl
@[simp] theorem setKey_rndInput (k : Word) : (s.setKey k).rndInput = s.rndInput := rfl
@[simp] theorem setKey_rndDrawn (k : Word) : (s.setKey k).rndDrawn = s.rndDrawn := rfl
@[simp] theorem setKey_getV (k : Word) (r : Reg) : (s.setKey k).getV r = s.getV r := rfl
@[simp] theorem setKey_addrAt (k : Word) (off : Nat) : (s.setKey k).addrAt off = s.addrAt off := rfl
@[simp] theorem setKey_cell (k : Word) (px : Fin 64) (py : Fin 32) : (s.setKey k).cell px py = s.cell px py := rfl
@[simp] theorem setKey_memRead (k : Word) (a : Nat) : memRead (s.setKey k) a = memRead s a := rfl

@[simp] theorem setMode_v (m : Mode) : (s.setMode m).v = s.v := rfl
@[simp] theorem setMode_index (m : Mode) : (s.setMode m).index = s.index := rfl
@[simp] theorem setMode_pc (m : Mode) : (s.setMode m).pc = s.pc := rfl
@[simp] theorem setMode_stack (m : Mode) : (s.setMode m).stack = s.stack := rfl
@[simp] theorem setMode_sp (m : Mode) : (s.setMode m).sp = s.sp := rfl
@[simp] theorem setMode_dt (m : Mode) : (s.setMode m).dt = s.dt := rfl
@[simp] theorem setMode_st (m : Mode) : (s.setMode m).st = s.st := rfl
@[simp] theorem setMode_key (m : Mode) : (s.setMode m).key = s.key := rfl
@[simp] theorem setMode_fb (m : Mode) : (s.setMode m).fb = s.fb := rfl
@[simp] theorem setMode_mode (m : Mode) : (s.setMode m).mode = m := rfl
@[simp] theorem setMode_mem (m : Mode) : (s.setMode m).mem = s.mem := rfl
@[simp] theorem setMode_err (m : Mode) : (s.setMode m).err = s.err := rfl
@[simp] theorem setMode_rndInput (m : Mode) : (s.setMode m).rndInput = s.rndInput := rfl
@[simp] theorem setMode_rndDrawn (m : Mode) : (s.setMode m).rndDrawn = s.rndDrawn := rfl
@[simp] theorem setMode_getV (m : Mode) (r : Reg) : (s.setMode m).getV r = s.getV r := rfl
@[simp] theorem setMode_addrAt (m : Mode) (off : Nat) : (s.setMode m).addrAt off = s.addrAt off := rfl
@[simp] theorem setMode_keyDown (m : Mode) (k : Fin 16) : (s.setMode m).keyDown k = s.keyDown k := rfl
@[simp] theorem setMode_cell (m : Mode) (px : Fin 64) (py : Fin 32) : (s.setMode m).cell px py = s.cell px py := rfl
@[simp] theorem setMode_lowestKey (m : Mode) : (s.setMode m).lowestKey = s.lowestKey := rfl
@[simp] theorem setMode_memRead (m : Mode) (a : Nat) : memRead (s.setMode m) a = memRead s a := rfl

@[simp] theorem setErr_v (e : Err) : (s.setErr e).v = s.v := rfl
@[simp] theorem setErr_index (e : Err) : (s.setErr e).index = s.index := rfl
@[simp] theorem setErr_pc (e : Err) : (s.setErr e).pc = s.pc := rfl
@[simp] theorem setErr_stack (e : Err) : (s.setErr e).stack = s.stack := rfl
@[simp] theorem setErr_sp (e : Err) : (s.setErr e).sp = s.sp := rfl
@[simp] theorem setErr_dt (e : Err) : (s.setErr e).dt = s.dt := rfl
@[simp] theorem setErr_st (e : Err) : (s.setErr e).st = s.st := rfl
@[simp] theorem setErr_key (e : Err) : (s.setErr e).key = s.key := rfl
@[simp] theorem setErr_fb (e : Err) : (s.setErr e).fb = s.fb := rfl
@[simp] theorem setErr_mode (e : Err) : (s.setErr e).mode = s.mode := rfl
@[simp] theorem setErr_mem (e : Err) : (s.setErr e).mem = s.mem := rfl
@[simp] theorem setErr_err (e : Err) : (s.setErr e).err = e := rfl
@[simp] theorem setErr_rndInput (e : Err) : (s.setErr e).rndInput = s.rndInput := rfl
@[simp] theorem setErr_rndDrawn (e : Err) : (s.setErr e).rndDrawn = s.rndDrawn := rfl
@[simp] theorem setErr_getV (e : Err) (r : Reg) : (s.setErr e).getV r = s.getV r := rfl
@[simp] theorem setErr_addrAt (e : Err) (off : Nat) : (s.setErr e).addrAt off = s.addrAt off := rfl
@[simp] theorem setErr_keyDown (e : Err) (k : Fin 16) : (s.setErr e).keyDown k = s.keyDown k := rfl
@[simp] theorem setErr_cell (e : Err) (px : Fin 64) (py : Fin 32) : (s.setErr e).cell px py = s.cell px py := rfl
@[simp] theorem setErr_lowestKey (e : Err) : (s.setErr e).lowestKey = s.lowestKey := rfl
@[simp] theorem setErr_memRead (e : Err) (a : Nat) : memRead (s.setErr e) a = memRead s a := rfl

@[simp] theorem setFb_v (f : Vector (BitVec 64) 32) : (s.setFb f).v = s.v := rfl
@[simp] theorem setFb_index (f : Vector (BitVec 64) 32) : (s.setFb f).index = s.index := rfl
@[simp] theorem setFb_pc (f : Vector (BitVec 64) 32) : (s.setFb f).pc = s.pc := rfl
@[simp] theorem setFb_stack (f : Vector (BitVec 64) 32) : (s.setFb f).stack = s.stack := rfl
@[simp] theorem setFb_sp (f : Vector (BitVec 64) 32) : (s.setFb f).sp = s.sp := rfl
@[simp] theorem setFb_dt (f : Vector (BitVec 64) 32) : (s.setFb f).dt = s.dt := rfl
@[simp] theorem setFb_st (f : Vector (BitVec 64) 32) : (s.setFb f).st = s.st := rfl
@[simp] theorem setFb_key (f : Vector (BitVec 64) 32) : (s.setFb f).key = s.key := rfl
@[simp] theorem setFb_fb (f : Vector (BitVec 64) 32) : (s.setFb f).fb = f := rfl
@[simp] theorem setFb_mode (f : Vector (BitVec 64) 32) : (s.setFb f).mode = s.mode := rfl
@[simp] theorem setFb_mem (f : Vector (BitVec 64) 32) : (s.setFb f).mem = s.mem := rfl
@[simp] theorem setFb_err (f : Vector (BitVec 64) 32) : (s.setFb f).err = s.err := rfl
@[simp] theorem setFb_rndInput (f : Vector (BitVec 64) 32) : (s.setFb f).rndInput = s.rndInput := rfl
@[simp] theorem setFb_rndDrawn (f : Vector (BitVec 64) 32) : (s.setFb f).rndDrawn = s.rndDrawn := rfl
@[simp] theorem setFb_getV (f : Vector (BitVec 64) 32) (r : Reg) : (s.setFb f).getV r = s.getV r := rfl
@[simp] theorem setFb_addrAt (f : Vector (BitVec 64) 32) (off : Nat) : (s.setFb f).addrAt off = s.addrAt off := rfl
@[simp] theorem setFb_keyDown (f : Vector (BitVec 64) 32) (k : Fin 16) : (s.setFb f).keyDown k = s.keyDown k := rfl
@[simp] theorem setFb_lowestKey (f : Vector (BitVec 64) 32) : (s.setFb f).lowestKey = s.lowestKey := rfl
@[simp] theorem setFb_memRead (f : Vector (BitVec 64) 32) (a : Nat) : memRead (s.setFb f) a = memRead s a := rfl

@[simp] theorem setMem_v (m : Memory) : (s.setMem m).v = s.v := rfl
@[simp] theorem setMem_index (m : Memory) : (s.setMem m).index = s.index := rfl
@[simp] theorem setMem_pc (m : Memory) : (s.setMem m).pc = s.pc := rfl
@[simp] theorem setMem_stack (m : Memory) : (s.setMem m).stack = s.stack := rfl
@[simp] theorem setMem_sp (m : Memory) : (s.setMem m).sp = s.sp := rfl
@[simp] theorem setMem_dt (m : Memory) : (s.setMem m).dt = s.dt := rfl
@[simp] theorem setMem_st (m : Memory) : (s.setMem m).st = s.st := rfl
@[simp] theorem setMem_key (m : Memory) : (s.setMem m).key = s.key := rfl
@[simp] theorem setMem_fb (m : Memory) : (s.setMem m).fb = s.fb := rfl
@[simp] theorem setMem_mode (m : Memory) : (s.setMem m).mode = s.mode := rfl
@[simp] theorem setMem_mem (m : Memory) : (s.setMem m).mem = m := rfl
@[simp] theorem setMem_err (m : Memory) : (s.setMem m).err = s.err := rfl
@[simp] theorem setMem_rndInput (m : Memory) : (s.setMem m).rndInput = s.rndInput := rfl
@[simp] theorem setMem_rndDrawn (m : Memory) : (s.setMem m).rndDrawn = s.rndDrawn := rfl
@[simp] theorem setMem_getV (m : Memory) (r : Reg) : (s.setMem m).getV r = s.getV r := rfl
@[simp] theorem setMem_addrAt (m : Memory) (off : Nat) : (s.setMem m).addrAt off = s.addrAt off := rfl
@[simp] theorem setMem_keyDown (m : Memory) (k : Fin 16) : (s.setMem m).keyDown k = s.keyDown k := rfl
@[simp] theorem setMem_cell (m : Memory) (px : Fin 64) (py : Fin 32) : (s.setMem m).cell px py = s.cell px py := rfl
@[simp] theorem setMem_lowestKey (m : Memory) : (s.setMem m).lowestKey = s.lowestKey := rfl

/-- Reading a register after a write to a register (R10). -/
@[simp] theorem setV_getV (x r : Reg) (b : Byte) :
    (s.setV x b).getV r = if r = x then b else s.getV r := by
  simp only [State.getV, State.setV, Vector.getElem_set]
  by_cases h : r = x
  · simp [h]
  · have : x.val ≠ r.val := fun e => h (Fin.ext e.symm)
    simp [h, this]

@[simp] theorem setIndex_addrAt (w : Word) (off : Nat) : (s.setIndex w).addrAt off = w.toNat + off := rfl
@[simp] theorem setKey_keyDown (w : Word) (k : Fin 16) : (s.setKey w).keyDown k = w.getLsbD k.val := rfl
@[simp] theorem setFb_cell (f : Vector (BitVec 64) 32) (px : Fin 64) (py : Fin 32) :
    (s.setFb f).cell px py = f[py.val].getLsbD px.val := rfl
@[simp] theorem setMem_memRead (m : Memory) (a : Nat) :
    memRead (s.setMem m) a = if a ≤ 0xFFF then some (m.read a) else none := rfl

theorem setErr_setErr (d e : Err) : (s.setErr d).setErr e = s.setErr e := rfl

/-- Two states that agree on every field are equal. -/
theorem State.ext_fields {s t : State} (hv : ∀ r, s.getV r = t.getV r) (h1 : s.index = t.index)
    (h2 : s.pc = t.pc) (h3 : s.stack = t.stack) (h4 : s.sp = t.sp) (h5 : s.dt = t.dt) (h6 : s.st = t.st)
    (h7 : s.key = t.key) (h8 : s.fb = t.fb) (h9 : s.mode = t.mode) (h10 : s.mem = t.mem)
    (h11 : s.err = t.err) (h12 : s.rndInput = t.rndInput) (h13 : s.rndDrawn = t.rndDrawn) : s = t := by
  obtain ⟨v, _, _, _, _, _, _, _, _, _, _, _, _, _⟩ := s
  obtain ⟨v', _, _, _, _, _, _, _, _, _, _, _, _, _⟩ := t
  have : v = v' := Vector.ext fun i hi => hv ⟨i, hi⟩
  simp_all

end Sys2Proof.Machine
end

