-- ==== Sys2Proof/Laws/Memory.lean ====
section
/-! SUPPORT. The laws of `MEM`: a read after a write, after a sequence of writes, after LOAD; and the canonical
form, which reset memory has and every memory operation keeps. -/

namespace Sys2Proof.Machine

/-- The font table has 80 bytes, so every address from 80 up is 0 after RESET (R24). -/
theorem resetByte_high {a : Nat} (h : 80 ≤ a) : resetByte a = 0 :=
  List.getD_eq_default _ _ (by simpa [Config.font, Config.fontLow, Config.fontHigh] using h)

theorem wfFrom_mono {lo lo' : Nat} (h : lo' ≤ lo) {m : Memory} (hm : Memory.wfFrom lo m = true) :
    Memory.wfFrom lo' m = true := by
  cases m with
  | nil => rfl
  | cons c m =>
    simp only [Memory.wfFrom, Bool.and_eq_true, decide_eq_true_eq] at hm ⊢
    exact ⟨⟨⟨by omega, hm.1.1.2⟩, hm.1.2⟩, hm.2⟩

/-- In canonical form, an address below every listed one reads as unlisted. -/
theorem read_below {lo a : Nat} {m : Memory} (hm : Memory.wfFrom lo m = true) (h : a < lo) :
    m.read a = resetByte a := by
  induction m generalizing lo with
  | nil => rfl
  | cons c m ih =>
    obtain ⟨k, v⟩ := c
    simp only [Memory.wfFrom, Bool.and_eq_true, decide_eq_true_eq] at hm
    rw [Memory.read, if_neg (by omega)]
    exact ih hm.2 (by omega)

theorem read_cons_ne {a c : Nat} (h : c ≠ a) (b : Byte) (m : Memory) : (Memory.cons a b m).read c = m.read c := by
  unfold Memory.cons
  split
  · rfl
  · rw [Memory.read, if_neg (Ne.symm h)]

theorem read_cons_self {a : Nat} (b : Byte) {m : Memory} (h : m.read a = resetByte a) :
    (Memory.cons a b m).read a = b := by
  unfold Memory.cons
  split
  · rw [h]; symm; assumption
  · simp [Memory.read]

theorem wfFrom_cons {lo a : Nat} {b : Byte} {m : Memory} (h : lo ≤ a) (ha : a ≤ 0xFFF)
    (hm : Memory.wfFrom (a + 1) m = true) : Memory.wfFrom lo (Memory.cons a b m) = true := by
  unfold Memory.cons
  split
  · exact wfFrom_mono (by omega) hm
  · simp_all [Memory.wfFrom]

/-- A write leaves every other address alone (no canonical form is needed). -/
theorem read_write_ne {a c : Nat} (h : c ≠ a) (b : Byte) (m : Memory) : (m.write a b).read c = m.read c := by
  induction m with
  | nil => exact read_cons_ne h b []
  | cons p m ih =>
    obtain ⟨k, v⟩ := p
    simp only [Memory.write]
    split
    · exact read_cons_ne h b _
    · split
      · rw [read_cons_ne h, Memory.read, if_neg (by omega)]
      · simp only [Memory.read, ih]

/-- A read after a write to the same address gives the byte written. -/
theorem read_write_self_from {lo a : Nat} {m : Memory} (hm : Memory.wfFrom lo m = true) (b : Byte) :
    (m.write a b).read a = b := by
  induction m generalizing lo with
  | nil => exact read_cons_self b rfl
  | cons p m ih =>
    obtain ⟨k, v⟩ := p
    simp only [Memory.wfFrom, Bool.and_eq_true, decide_eq_true_eq] at hm
    simp only [Memory.write]
    split
    next hlt =>
      refine read_cons_self b ?_
      rw [Memory.read, if_neg (by omega)]
      exact read_below hm.2 (by omega)
    next hlt =>
      split
      next heq => exact read_cons_self b (read_below hm.2 (by omega))
      next hne =>
        rw [Memory.read, if_neg (by omega)]
        exact ih hm.2

theorem read_write_self {a : Nat} {m : Memory} (hm : m.wf = true) (b : Byte) : (m.write a b).read a = b :=
  read_write_self_from hm b

/-- Reading any address after a write (R51). -/
theorem read_write {a : Nat} {m : Memory} (hm : m.wf = true) (b : Byte) (c : Nat) :
    (m.write a b).read c = if c = a then b else m.read c := by
  split
  next h => rw [h, read_write_self hm]
  next h => exact read_write_ne h b m

theorem wfFrom_write {lo a : Nat} {m : Memory} (hm : Memory.wfFrom lo m = true) (hlo : lo ≤ a) (ha : a ≤ 0xFFF)
    (b : Byte) : Memory.wfFrom lo (m.write a b) = true := by
  induction m generalizing lo with
  | nil => exact wfFrom_cons hlo ha rfl
  | cons p m ih =>
    obtain ⟨k, v⟩ := p
    have hm' := hm
    simp only [Memory.wfFrom, Bool.and_eq_true, decide_eq_true_eq] at hm'
    simp only [Memory.write]
    split
    next hlt =>
      refine wfFrom_cons hlo ha ?_
      simp only [Memory.wfFrom, Bool.and_eq_true, decide_eq_true_eq]
      exact ⟨⟨⟨by omega, hm'.1.1.2⟩, hm'.1.2⟩, hm'.2⟩
    next hlt =>
      split
      next heq => exact wfFrom_cons hlo ha (heq ▸ hm'.2)
      next hne =>
        simp only [Memory.wfFrom, Bool.and_eq_true, decide_eq_true_eq]
        exact ⟨hm'.1, ih hm'.2 (by omega)⟩

/-- A write inside the address space keeps the canonical form. -/
theorem wf_write {a : Nat} {m : Memory} (hm : m.wf = true) (ha : a ≤ 0xFFF) (b : Byte) :
    (m.write a b).wf = true := wfFrom_write hm (Nat.zero_le a) ha b

/-- Reset memory has the canonical form. -/
theorem wf_reset : State.reset.mem.wf = true := rfl

theorem wfFrom_place (bytes : List Byte) (a : Nat) (ha : a + bytes.length ≤ 0x1000) :
    Memory.wfFrom a (Memory.place a bytes) = true := by
  induction bytes generalizing a with
  | nil => rfl
  | cons b bytes ih =>
    simp only [List.length_cons] at ha
    exact wfFrom_cons (Nat.le_refl a) (by omega) (ih (a + 1) (by omega))

/-- The bytes that LOAD places. -/
theorem read_place (bytes : List Byte) (a : Nat) (ha : a + bytes.length ≤ 0x1000) (c : Nat) :
    (Memory.place a bytes).read c =
      if a ≤ c ∧ c < a + bytes.length then bytes.getD (c - a) 0 else resetByte c := by
  induction bytes generalizing a with
  | nil => simp [Memory.place, Memory.read]
  | cons b bytes ih =>
    simp only [List.length_cons] at ha
    rw [Memory.place]
    by_cases h : c = a
    · subst h
      rw [read_cons_self b (read_below (wfFrom_place bytes (c + 1) (by omega)) (by omega))]
      simp
    · rw [read_cons_ne h, ih (a + 1) (by omega)]
      by_cases h2 : a + 1 ≤ c ∧ c < a + 1 + bytes.length
      · have e : c - a = (c - (a + 1)) + 1 := by omega
        rw [if_pos h2, if_pos (by simp; omega), e, List.getD_cons_succ]
      · rw [if_neg h2, if_neg (by simp; omega)]

/-- Memory after RESET with any `FONT` has the canonical form. -/
theorem wf_resetWithFont (font : Config.Font) : (State.resetWithFont font).mem.wf = true :=
  wfFrom_place font.toList 0 (by simp [Config.fontLen])

/-- Memory after RESET with any `FONT` (R24): the table, then zeros. -/
theorem read_resetWithFont (font : Config.Font) (a : Nat) :
    (State.resetWithFont font).mem.read a = if h : a < 80 then font[a] else 0 := by
  refine (read_place font.toList 0 (by simp [Config.fontLen]) a).trans ?_
  by_cases h : a < 80
  · rw [if_pos (by simpa [Config.fontLen] using h), dif_pos h,
      List.getD_eq_getElem _ _ (by simpa [Config.fontLen] using h)]
    simp
  · rw [if_neg (by simpa [Config.fontLen] using h), dif_neg h, resetByte_high (by omega)]

/-- Only memory depends on the `FONT`. -/
theorem resetWithFont_eq (font : Config.Font) :
    State.resetWithFont font = State.reset.setMem (State.resetWithFont font).mem := rfl

theorem read_append_filter (m n : Memory) (hn : ∀ c, c < 0x200 → Memory.read n c = resetByte c) (a : Nat) :
    Memory.read (m.filter (fun c => decide (c.1 < 0x200)) ++ n) a = if a < 0x200 then m.read a else n.read a := by
  induction m with
  | nil =>
    split
    next h => exact hn a h
    next h => rfl
  | cons p m ih =>
    obtain ⟨k, v⟩ := p
    simp only [List.filter_cons]
    split
    next hk =>
      simp only [decide_eq_true_eq] at hk
      simp only [List.cons_append, Memory.read]
      by_cases h : k = a
      · simp [h, show a < 0x200 by omega]
      · simp only [if_neg h]; exact ih
    next hk =>
      simp only [decide_eq_true_eq] at hk
      rw [ih]
      split
      next h => rw [Memory.read, if_neg (by omega)]
      next h => rfl

/-- Memory after a successful LOAD (R192, R194): the program, then zeros, and the font region as it was. -/
theorem read_loadProgram (m : Memory) (bytes : List Byte) (h : bytes.length ≤ 3584) (a : Nat) :
    (m.loadProgram bytes).read a = if a < 0x200 then m.read a else bytes.getD (a - 0x200) 0 := by
  have hp := fun c => read_place bytes 0x200 (by omega) c
  rw [Memory.loadProgram, read_append_filter m _ fun c hc => by rw [hp, if_neg (by omega)]]
  split
  · rfl
  next ha =>
    rw [hp]
    split
    · rfl
    next hb =>
      rw [resetByte_high (by omega), List.getD_eq_default _ _ (by omega)]

theorem wfFrom_append_filter {lo : Nat} {m n : Memory} (hm : Memory.wfFrom lo m = true)
    (hn : Memory.wfFrom 0x200 n = true) (hlo : lo ≤ 0x200) :
    Memory.wfFrom lo (m.filter (fun c => decide (c.1 < 0x200)) ++ n) = true := by
  induction m generalizing lo with
  | nil => exact wfFrom_mono hlo hn
  | cons p m ih =>
    obtain ⟨k, v⟩ := p
    simp only [Memory.wfFrom, Bool.and_eq_true, decide_eq_true_eq] at hm
    simp only [List.filter_cons]
    split
    next hk =>
      simp only [decide_eq_true_eq] at hk
      simp only [List.cons_append, Memory.wfFrom, Bool.and_eq_true, decide_eq_true_eq]
      exact ⟨hm.1, ih hm.2 (by omega)⟩
    next hk => exact ih (wfFrom_mono (by omega) hm.2) hlo

/-- LOAD keeps the canonical form. -/
theorem wf_loadProgram {m : Memory} (hm : m.wf = true) {bytes : List Byte} (h : bytes.length ≤ 3584) :
    (m.loadProgram bytes).wf = true :=
  wfFrom_append_filter hm (wfFrom_place bytes 0x200 (by omega)) (by omega)

/-- Canonical memories that read alike are equal data. -/
theorem wf_ext_from {lo : Nat} {m n : Memory} (hm : Memory.wfFrom lo m = true) (hn : Memory.wfFrom lo n = true)
    (h : ∀ a, m.read a = n.read a) : m = n := by
  induction m generalizing lo n with
  | nil =>
    cases n with
    | nil => rfl
    | cons q n =>
      obtain ⟨k, v⟩ := q
      simp only [Memory.wfFrom, Bool.and_eq_true, decide_eq_true_eq] at hn
      have := h k
      simp [Memory.read] at this
      exact absurd this.symm hn.1.2
  | cons p m ih =>
    obtain ⟨k, v⟩ := p
    have hm' := hm
    simp only [Memory.wfFrom, Bool.and_eq_true, decide_eq_true_eq] at hm'
    cases n with
    | nil =>
      have := h k
      simp [Memory.read] at this
      exact absurd this hm'.1.2
    | cons q n =>
      obtain ⟨j, w⟩ := q
      have hn' := hn
      simp only [Memory.wfFrom, Bool.and_eq_true, decide_eq_true_eq] at hn'
      have hkj : k = j := by
        rcases Nat.lt_trichotomy k j with hlt | heq | hgt
        · have e := h k
          rw [Memory.read, if_pos rfl, Memory.read, if_neg (by omega), read_below hn'.2 (by omega)] at e
          exact absurd e hm'.1.2
        · exact heq
        · have e := h j
          rw [Memory.read, if_neg (by omega), read_below hm'.2 (by omega), Memory.read, if_pos rfl] at e
          exact absurd e.symm hn'.1.2
      subst hkj
      have hvw : v = w := by have e := h k; simpa [Memory.read] using e
      subst hvw
      refine congrArg _ (ih hm'.2 hn'.2 fun a => ?_)
      by_cases ha : k = a
      · subst ha; rw [read_below hm'.2 (by omega), read_below hn'.2 (by omega)]
      · have e := h a
        simpa only [Memory.read, if_neg ha] using e

theorem wf_ext {m n : Memory} (hm : m.wf = true) (hn : n.wf = true) (h : ∀ a, m.read a = n.read a) : m = n :=
  wf_ext_from hm hn h

end Sys2Proof.Machine
end

