-- ==== Sys2Proof/Laws/Ops.lean ====
section
/-! SUPPORT. One lemma per shared operation, saying once everything it can do; the meanings' claims cite these
and unfold no operation. -/

namespace Sys2Proof.Machine

/-! Frames: how they compose. -/

theorem OnlyChanges.refl (W : Element → Prop) (s : State) : OnlyChanges W s s := fun e _ => by
  cases e <;> simp [Element.Same]

theorem Element.Same.trans {e : Element} {s t u : State} (h1 : e.Same s t) (h2 : e.Same t u) : e.Same s u := by
  cases e <;> simp_all [Element.Same]

theorem OnlyChanges.trans {W : Element → Prop} {s t u : State} (h1 : OnlyChanges W s t)
    (h2 : OnlyChanges W t u) : OnlyChanges W s u := fun e he => (h1 e he).trans (h2 e he)

theorem OnlyChanges.mono {W W' : Element → Prop} {s t : State} (h : OnlyChanges W s t)
    (hW : ∀ e, W e → W' e) : OnlyChanges W' s t := fun e he => h e fun hw => he (hW e hw)

/-! The flag register and results. -/

@[simp] theorem setFlag_getV (s : State) (f : Bool) (r : Reg) :
    (s.setFlag f).getV r = if r = flagReg then flagByte f else s.getV r := setV_getV ..

theorem setFlag_eq (s : State) (f : Bool) : s.setFlag f = s.setV flagReg (flagByte f) := rfl

/-- Writing a result and then a flag: VF ends as the flag, `x` as the result unless it is VF (R12). -/
@[simp] theorem setResultFlag_getV (s : State) (x r : Reg) (b : Byte) (f : Bool) :
    (s.setResultFlag x b f).getV r =
      if r = flagReg then flagByte f else if r = x then b else s.getV r := by
  simp [State.setResultFlag]

theorem setV_onlyChanges (s : State) (x : Reg) (b : Byte) : OnlyChanges (· = .v x) s (s.setV x b) := fun e he => by
  cases e <;> simp [Element.Same]
  intro h; simp_all

theorem setResultFlag_onlyChanges (s : State) (x : Reg) (b : Byte) (f : Bool) :
    OnlyChanges (fun e => e = .v x ∨ e = .v flagReg) s (s.setResultFlag x b f) :=
  ((setV_onlyChanges s x b).mono fun _ h => .inl h).trans
    ((setV_onlyChanges (s.setV x b) flagReg (flagByte f)).mono fun _ h => .inr h)

/-- A flag value is 0 or 1 (R11). -/
theorem flagByte_cases (f : Bool) : flagByte f = 0 ∨ flagByte f = 1 := by cases f <;> simp [flagByte]

/-! Memory primitives and sequences. -/

theorem memRead_eq (s : State) (a : Nat) : memRead s a = if a ≤ 0xFFF then some (s.mem.read a) else none := rfl

theorem memWrite_eq (s : State) (a : Nat) (b : Byte) :
    memWrite s a b = if a ≤ 0xFFF then some (s.setMem (s.mem.write a b)) else none := rfl

/-- Reading a byte after a write to another address. -/
theorem memRead_write_ne (s : State) {a c : Nat} (h : c ≠ a) (b : Byte) :
    memRead (s.setMem (s.mem.write a b)) c = memRead s c := by
  rw [memRead_eq, memRead_eq]; simp [read_write_ne h]

/-- Everything a sequence of stores can do: memory changes, in canonical form if it was, and `ERR` is unchanged
or an address above 0xFFF of the sequence. -/
theorem storeCells_cases (cells : List Host.Cell) (s : State) :
    ∃ m e, storeCells cells s = (s.setMem m).setErr e ∧ (s.mem.wf = true → m.wf = true) ∧
      (e = s.err ∨ ∃ c ∈ cells, 0xFFF < c.1 ∧ e = .outOfBoundsAccess c.1) := by
  induction cells generalizing s with
  | nil => exact ⟨s.mem, s.err, rfl, id, .inl rfl⟩
  | cons c cells ih =>
    obtain ⟨a, b⟩ := c
    by_cases h : a ≤ 0xFFF
    · obtain ⟨m, e, h1, h2, h3⟩ := ih (s.setMem (s.mem.write a b))
      refine ⟨m, e, ?_, fun hw => h2 (wf_write hw h b), h3.imp id ?_⟩
      · rw [storeCells, memWrite_eq, if_pos h]; exact h1
      · rintro ⟨c, hc, h⟩; exact ⟨c, .tail _ hc, h⟩
    · refine ⟨s.mem, .outOfBoundsAccess a, ?_, id, .inr ⟨(a, b), .head _, by simp; omega, rfl⟩⟩
      rw [storeCells, memWrite_eq, if_neg h]; rfl

/-- A sequence of stores inside memory is the writes, one after another. -/
theorem storeCells_inBounds {cells : List Host.Cell} (h : ∀ c ∈ cells, c.1 ≤ 0xFFF) (s : State) :
    storeCells cells s = s.setMem (cells.foldl (fun m c => m.write c.1 c.2) s.mem) := by
  induction cells generalizing s with
  | nil => rfl
  | cons c cells ih =>
    rw [storeCells, memWrite_eq, if_pos (h c (.head _))]
    exact ih (fun d hd => h d (.tail _ hd)) _

/-- Stores inside memory, then one that is not: the first ones stay, the rest do not happen (R50). -/
theorem storeCells_append {cells : List Host.Cell} (h : ∀ c ∈ cells, c.1 ≤ 0xFFF) (rest : List Host.Cell)
    (s : State) : storeCells (cells ++ rest) s = storeCells rest (storeCells cells s) := by
  induction cells generalizing s with
  | nil => rfl
  | cons c cells ih =>
    have hc := h c (.head _)
    simp only [List.cons_append, storeCells, memWrite_eq, if_pos hc]
    exact ih (fun d hd => h d (.tail _ hd)) _

theorem storeCells_fail {a : Nat} (h : 0xFFF < a) (b : Byte) (rest : List Host.Cell) (s : State) :
    storeCells ((a, b) :: rest) s = s.setErr (.outOfBoundsAccess a) := by
  rw [storeCells, memWrite_eq, if_neg (by omega)]; rfl

/-- A sequence of stores changes only the bytes it names, and `ERR`. -/
theorem storeCells_onlyChanges (cells : List Host.Cell) (s : State) :
    OnlyChanges (fun e => StoredBytes cells e ∨ e = .err) s (storeCells cells s) := by
  induction cells generalizing s with
  | nil => exact .refl _ s
  | cons c cells ih =>
    obtain ⟨a, b⟩ := c
    rw [storeCells, memWrite_eq]
    split
    next t ht =>
      split at ht
      next h =>
        cases ht
        refine .trans (t := s.setMem (s.mem.write a b)) (fun e he => ?_) ((ih _).mono ?_)
        · cases e <;> simp only [Element.Same, setMem_index, setMem_pc, setMem_stack, setMem_sp, setMem_dt,
            setMem_st, setMem_key, setMem_cell, setMem_mode, setMem_err, setMem_rndInput, setMem_rndDrawn,
            setMem_getV, and_self]
          next d =>
            refine memRead_write_ne s (fun hd => he (.inl ⟨(a, b), .head _, ?_⟩)) b
            rw [hd]
        · rintro e (⟨c, hc, he⟩ | he)
          · exact .inl ⟨c, .tail _ hc, he⟩
          · exact .inr he
      next => cases ht
    next =>
      intro e he
      cases e <;> simp [Element.Same, raise] at he ⊢

/-- Stores to distinct addresses inside memory leave each of them as stored. -/
theorem foldl_write_wf {cells : List Host.Cell} (h : ∀ c ∈ cells, c.1 ≤ 0xFFF) {m : Memory} (hm : m.wf = true) :
    (cells.foldl (fun m c => m.write c.1 c.2) m).wf = true := by
  induction cells generalizing m with
  | nil => exact hm
  | cons c cells ih =>
    exact ih (fun d hd => h d (.tail _ hd)) (wf_write hm (h c (.head _)) c.2)

theorem foldl_write_read_other {cells : List Host.Cell} {a : Nat} (h : ∀ c ∈ cells, c.1 ≠ a) (m : Memory) :
    (cells.foldl (fun m c => m.write c.1 c.2) m).read a = m.read a := by
  induction cells generalizing m with
  | nil => rfl
  | cons c cells ih =>
    rw [List.foldl_cons, ih (fun d hd => h d (.tail _ hd)), read_write_ne (h c (.head _)).symm]

theorem foldl_write_read {cells : List Host.Cell} (h : ∀ c ∈ cells, c.1 ≤ 0xFFF)
    (hd : (cells.map Prod.fst).Nodup) {m : Memory} (hm : m.wf = true) {c : Host.Cell} (hc : c ∈ cells) :
    (cells.foldl (fun m c => m.write c.1 c.2) m).read c.1 = c.2 := by
  induction cells generalizing m with
  | nil => cases hc
  | cons p cells ih =>
    simp only [List.map_cons, List.nodup_cons] at hd
    have hp := h p (.head _)
    rcases List.mem_cons.mp hc with rfl | hc'
    · rw [List.foldl_cons, foldl_write_read_other fun d hdm hda =>
        hd.1 (List.mem_map.mpr ⟨d, hdm, hda⟩), read_write_self hm]
    · exact ih (fun d hdm => h d (.tail _ hdm)) hd.2 (wf_write hm hp p.2) hc'

/-! Register lists. -/

theorem mem_allRegs (r : Reg) : r ∈ allRegs := by revert r; decide

/-- The registers up to `x` are those with a number at most `x`. -/
@[simp] theorem mem_regsUpTo (x r : Reg) : r ∈ regsUpTo x ↔ r ≤ x := by revert x r; decide

theorem nodup_regsUpTo (x : Reg) : (regsUpTo x).Nodup := by revert x; decide

/-- Everything a sequence of register loads can do: registers of the list change, and `ERR` is unchanged or an
address above 0xFFF. -/
theorem loadRegs_cases (regs : List Reg) (s : State) :
    ∃ v e, loadRegs regs s = { s with v := v, err := e } ∧
      (∀ r, r ∉ regs → v[r.val] = s.v[r.val]) ∧
      (e = s.err ∨ ∃ r ∈ regs, 0xFFF < s.addrAt r.val ∧ e = .outOfBoundsAccess (s.addrAt r.val)) := by
  induction regs generalizing s with
  | nil => exact ⟨s.v, s.err, rfl, fun _ _ => rfl, .inl rfl⟩
  | cons r regs ih =>
    rw [loadRegs, memRead_eq]
    by_cases h : s.addrAt r.val ≤ 0xFFF
    · rw [if_pos h]
      obtain ⟨v, e, h1, h2, h3⟩ := ih (s.setV r (s.mem.read (s.addrAt r.val)))
      refine ⟨v, e, h1, fun q hq => ?_, h3.imp id ?_⟩
      · rw [h2 q fun hm => hq (.tail _ hm)]
        have := setV_getV s r q (s.mem.read (s.addrAt r.val))
        rw [if_neg fun hqr => hq (by rw [hqr]; exact .head _)] at this
        exact this
      · rintro ⟨q, hq, h⟩; exact ⟨q, .tail _ hq, h⟩
    · rw [if_neg h]
      exact ⟨s.v, .outOfBoundsAccess (s.addrAt r.val), rfl, fun _ _ => rfl,
        .inr ⟨r, .head _, by omega, rfl⟩⟩

/-- Loads inside memory give every register of the list its byte and leave the others. -/
theorem loadRegs_inBounds {s : State} {regs : List Reg} (h : ∀ r ∈ regs, s.addrAt r.val ≤ 0xFFF) (hd : regs.Nodup)
    (q : Reg) : (loadRegs regs s).getV q =
      if q ∈ regs then s.mem.read (s.addrAt q.val) else s.getV q := by
  induction regs generalizing s with
  | nil => simp [loadRegs]
  | cons r regs ih =>
    rw [List.nodup_cons] at hd
    rw [loadRegs, memRead_eq, if_pos (h r (.head _))]
    refine (ih (s := s.setV r (s.mem.read (s.addrAt r.val))) (fun p hp => h p (.tail _ hp)) hd.2).trans ?_
    by_cases hq : q = r
    · subst hq; simp [hd.1]
    · simp [hq]

theorem loadRegs_inBounds_err {s : State} {regs : List Reg} (h : ∀ r ∈ regs, s.addrAt r.val ≤ 0xFFF) :
    (loadRegs regs s).err = s.err := by
  induction regs generalizing s with
  | nil => rfl
  | cons r regs ih =>
    rw [loadRegs, memRead_eq, if_pos (h r (.head _))]
    exact ih (s := s.setV r _) fun p hp => h p (.tail _ hp)

theorem loadRegs_append {s : State} {regs : List Reg} (h : ∀ r ∈ regs, s.addrAt r.val ≤ 0xFFF) (rest : List Reg) :
    loadRegs (regs ++ rest) s = loadRegs rest (loadRegs regs s) := by
  induction regs generalizing s with
  | nil => rfl
  | cons r regs ih =>
    simp only [List.cons_append, loadRegs, memRead_eq, if_pos (h r (.head _))]
    exact ih (s := s.setV r _) fun p hp => h p (.tail _ hp)

theorem loadRegs_fail {s : State} {r : Reg} (h : 0xFFF < s.addrAt r.val) (rest : List Reg) :
    loadRegs (r :: rest) s = s.setErr (.outOfBoundsAccess (s.addrAt r.val)) := by
  rw [loadRegs, memRead_eq, if_neg (by omega)]; rfl

/-! The call stack. -/

/-- A push succeeds exactly below 16 entries, stores `PC` at `STACK[SP]` and counts (R92). -/
theorem pushPc_cases (s : State) :
    (∃ h : s.sp.val < 16, pushPc s =
      some { s with stack := s.stack.set s.sp.val s.pc h, sp := ⟨s.sp.val + 1, Nat.succ_lt_succ h⟩ }) ∨
    (s.sp.val = 16 ∧ pushPc s = none) := by
  unfold pushPc
  split
  next h => exact .inl ⟨h, rfl⟩
  next h => exact .inr ⟨by have := s.sp.isLt; simp only [Config.stackDepth] at h; omega, rfl⟩

/-- A pop succeeds exactly above 0 entries, takes `STACK[SP-1]` and counts (R90). -/
theorem popPc_cases (s : State) :
    (s.sp.val = 0 ∧ popPc s = none) ∨
    (s.sp.val ≠ 0 ∧ ∃ h : s.sp.val - 1 < 16, popPc s =
      some { s with pc := s.stack[s.sp.val - 1], sp := ⟨s.sp.val - 1, Nat.lt_succ_of_lt h⟩ }) := by
  unfold popPc
  split
  next h => exact .inl ⟨h, rfl⟩
  next h => exact .inr ⟨h, by have := s.sp.isLt; omega, rfl⟩

/-! The keypad. -/

theorem find_allRegs_some {p : Fin 16 → Bool} {k : Fin 16} (hk : p k = true) (hlow : ∀ j, j < k → p j = false) :
    allRegs.find? p = some k := by
  have hsplit : ∀ k : Fin 16, allRegs = allRegs.take k.val ++ k :: allRegs.drop (k.val + 1) := by decide
  have hless : ∀ k j : Fin 16, j ∈ allRegs.take k.val → j < k := by decide
  rw [hsplit k, List.find?_append, List.find?_eq_none.mpr fun j hj => by simp [hlow j (hless k j hj)]]
  simp [hk]

theorem find_allRegs_none {p : Fin 16 → Bool} : allRegs.find? p = none ↔ ∀ k, p k = false := by
  simp only [List.find?_eq_none, Bool.not_eq_true]
  exact ⟨fun h k => h k (mem_allRegs k), fun h k _ => h k⟩

/-- The lowest pressed key (R86). -/
theorem lowestKey_some {s : State} {k : Fin 16} :
    s.lowestKey = some k ↔ s.keyDown k = true ∧ ∀ j, j < k → s.keyDown j = false := by
  constructor
  · intro h
    have hk : s.keyDown k = true := List.find?_some h
    refine ⟨hk, fun j hj => ?_⟩
    by_contra hjd
    rw [Bool.not_eq_false] at hjd
    have : ∃ m, (s.keyDown m = true) ∧ ∀ i, i < m → s.keyDown i = false := by
      have hex : ∃ n, ∃ hn : n < 16, s.keyDown ⟨n, hn⟩ = true := ⟨j.val, j.isLt, hjd⟩
      classical
      obtain ⟨hn, hd⟩ := Nat.find_spec hex
      refine ⟨⟨Nat.find hex, hn⟩, hd, fun i hi => ?_⟩
      have := Nat.find_min hex hi
      by_contra hc
      exact this ⟨i.isLt, by simpa using hc⟩
    obtain ⟨m, hm, hlow⟩ := this
    have hsome : s.lowestKey = some m := find_allRegs_some hm hlow
    rw [h, Option.some.injEq] at hsome
    subst hsome
    rw [hlow j hj] at hjd
    cases hjd
  · rintro ⟨hk, hlow⟩
    exact find_allRegs_some hk hlow

/-- No key is pressed. -/
theorem lowestKey_none {s : State} : s.lowestKey = none ↔ ∀ k, s.keyDown k = false := find_allRegs_none

/-! The fetch and a STEP. -/

/-- What a fetch can do (R81). -/
theorem fetch_cases (s : State) :
    (0x1000 ≤ s.pc.toNat ∧ fetch s = .error s.pc.toNat) ∨
    (s.pc.toNat = 0xFFF ∧ fetch s = .error 0x1000) ∨
    (s.pc.toNat ≤ 0xFFE ∧
      fetch s = .ok (opcodeOf (s.mem.read s.pc.toNat) (s.mem.read (s.pc.toNat + 1)))) := by
  simp only [fetch, memRead_eq]
  by_cases h : s.pc.toNat ≤ 0xFFF
  · by_cases h2 : s.pc.toNat + 1 ≤ 0xFFF
    · right; right; simp only [if_pos h, if_pos h2, and_true]; omega
    · right; left
      simp only [if_pos h, if_neg h2]
      have e : s.pc.toNat = 0xFFF := by omega
      exact ⟨e, by rw [e]⟩
  · left; simp only [if_neg h, and_true]; omega

/-- The decoder rejects a word only as an unknown opcode (R67). -/
theorem decodeWord_error {op : Word} {e : DecodeError} (h : decodeWord op = .error e) : e = .unknownOpcode op := by
  unfold decodeWord at h
  split at h <;>
    first
      | cases h
      | (simp only [decodeFam0, decodeFam5, decodeFam8, decodeFam9, decodeFamE, decodeFamF] at h
         split at h <;> cases h; rfl)

/-- What a STEP can do (R80): a key poll, a failed fetch, an unknown opcode, or an instruction. -/
theorem step_cases (s : State) :
    (∃ x, s.mode = .waitingForKey x ∧ step s = .next (keyPoll x (beginEvent s))) ∨
    (s.mode = .running ∧ ∃ a, fetch s = .error a ∧ step s = .next (raise (.outOfBoundsAccess a) s)) ∨
    (s.mode = .running ∧ ∃ op, fetch s = .ok op ∧ decodeWord op = .error (.unknownOpcode op) ∧
      step s = .next (raise (.unknownOpcode op) (enterExec s))) ∨
    (s.mode = .running ∧ ∃ op i, fetch s = .ok op ∧ decodeWord op = .ok i ∧ step s = exec i (enterExec s)) := by
  unfold step
  cases hm : s.mode with
  | waitingForKey x => exact .inl ⟨x, rfl, rfl⟩
  | running =>
    cases hf : fetch s with
    | error a => exact .inr (.inl ⟨rfl, a, rfl, rfl⟩)
    | ok op =>
      cases hd : decodeWord op with
      | error e => exact .inr (.inr (.inl ⟨rfl, op, rfl, by rw [hd, decodeWord_error hd], by simp [hd]⟩))
      | ok i => exact .inr (.inr (.inr ⟨rfl, op, i, rfl, hd, by simp [hd]⟩))

@[simp] theorem enterExec_mem (s : State) : (enterExec s).mem = s.mem := rfl
@[simp] theorem enterExec_pc (s : State) : (enterExec s).pc = s.pc + 2 := rfl
@[simp] theorem enterExec_err (s : State) : (enterExec s).err = .none := rfl
@[simp] theorem enterExec_getV (s : State) (r : Reg) : (enterExec s).getV r = s.getV r := rfl

end Sys2Proof.Machine
end

