-- ==== Sys2Proof/Laws/Draw.lean ====
section
/-! SUPPORT. What drawing does: one pixel, a list of pixels, and the rows of a sprite as the list of the pixels it
lights. -/

namespace Sys2Proof.Machine

/-- A pixel inverts its cell and no other. -/
@[simp] theorem drawPixel_cell (px qx : Fin 64) (py qy : Fin 32) (s : State) :
    (drawPixel px py s).cell qx qy = if qx = px ∧ qy = py then !s.cell qx qy else s.cell qx qy := by
  have h : (drawPixel px py s).cell qx qy =
      (s.fb.set py.val (s.fb[py.val] ^^^ BitVec.twoPow 64 px.val))[qy.val].getLsbD qx.val := by
    unfold drawPixel; split <;> rfl
  rw [h, Vector.getElem_set]
  by_cases hy : qy = py
  · subst hy
    simp only [if_pos, and_true, BitVec.getLsbD_xor, BitVec.getLsbD_twoPow, State.cell]
    by_cases hx : qx = px
    · subst hx; simp
    · have : px.val ≠ qx.val := fun e => hx (Fin.ext e.symm)
      simp [hx, this]
  · have : py.val ≠ qy.val := fun e => hy (Fin.ext e.symm)
    simp [hy, this, State.cell]

/-- A pixel on a lit cell sets VF; no other register changes. -/
@[simp] theorem drawPixel_getV (px : Fin 64) (py : Fin 32) (s : State) (r : Reg) :
    (drawPixel px py s).getV r = if r = flagReg ∧ s.cell px py = true then 1 else s.getV r := by
  unfold drawPixel
  by_cases h : s.cell px py = true
  · by_cases hr : r = flagReg <;> simp [h, hr, flagByte]
  · simp [h]

/-- Everything a pixel can do: the frame buffer and VF. -/
theorem drawPixel_cases (px : Fin 64) (py : Fin 32) (s : State) :
    ∃ f v, drawPixel px py s = { s with fb := f, v := v } := by
  unfold drawPixel; split
  · exact ⟨_, _, rfl⟩
  · exact ⟨_, s.v, rfl⟩

/-- Pixels drawn one after another. -/
def drawPixels (ps : List (Fin 64 × Fin 32)) (s : State) : State :=
  ps.foldl (fun s p => drawPixel p.1 p.2 s) s

@[simp] theorem drawPixels_nil (s : State) : drawPixels [] s = s := rfl
@[simp] theorem drawPixels_cons (p : Fin 64 × Fin 32) (ps : List (Fin 64 × Fin 32)) (s : State) :
    drawPixels (p :: ps) s = drawPixels ps (drawPixel p.1 p.2 s) := rfl

theorem drawPixels_append (ps qs : List (Fin 64 × Fin 32)) (s : State) :
    drawPixels (ps ++ qs) s = drawPixels qs (drawPixels ps s) := List.foldl_append

theorem drawPixels_cases (ps : List (Fin 64 × Fin 32)) (s : State) :
    ∃ f v, drawPixels ps s = { s with fb := f, v := v } := by
  induction ps generalizing s with
  | nil => exact ⟨s.fb, s.v, rfl⟩
  | cons p ps ih =>
    obtain ⟨f, v, h⟩ := drawPixel_cases p.1 p.2 s
    obtain ⟨f', v', h'⟩ := ih (drawPixel p.1 p.2 s)
    exact ⟨f', v', by rw [drawPixels_cons, h', h]⟩

/-- Only VF among the registers, and it stays or becomes 1. -/
theorem drawPixels_getV_other (ps : List (Fin 64 × Fin 32)) (s : State) {r : Reg} (hr : r ≠ flagReg) :
    (drawPixels ps s).getV r = s.getV r := by
  induction ps generalizing s with
  | nil => rfl
  | cons p ps ih => rw [drawPixels_cons, ih]; simp [hr]

theorem drawPixels_flag_cases (ps : List (Fin 64 × Fin 32)) (s : State) :
    (drawPixels ps s).getV flagReg = s.getV flagReg ∨ (drawPixels ps s).getV flagReg = 1 := by
  induction ps generalizing s with
  | nil => exact .inl rfl
  | cons p ps ih =>
    rw [drawPixels_cons]
    rcases ih (drawPixel p.1 p.2 s) with h | h
    · rw [h, drawPixel_getV]; split <;> simp
    · exact .inr h

/-- Distinct pixels invert exactly their cells. -/
theorem drawPixels_cell {ps : List (Fin 64 × Fin 32)} (hd : ps.Nodup) (s : State) (qx : Fin 64) (qy : Fin 32) :
    (drawPixels ps s).cell qx qy = if (qx, qy) ∈ ps then !s.cell qx qy else s.cell qx qy := by
  induction ps generalizing s with
  | nil => simp
  | cons p ps ih =>
    rw [List.nodup_cons] at hd
    rw [drawPixels_cons, ih hd.2, drawPixel_cell]
    by_cases h : (qx, qy) = p
    · subst h; simp [hd.1]
    · have : ¬(qx = p.1 ∧ qy = p.2) := fun hh => h (Prod.ext hh.1 hh.2)
      simp [h, this]

/-- Distinct pixels set VF exactly when one of their cells was lit. -/
theorem drawPixels_flag {ps : List (Fin 64 × Fin 32)} (hd : ps.Nodup) (s : State) :
    (drawPixels ps s).getV flagReg = if ∃ p ∈ ps, s.cell p.1 p.2 = true then 1 else s.getV flagReg := by
  induction ps generalizing s with
  | nil => simp
  | cons p ps ih =>
    rw [List.nodup_cons] at hd
    rw [drawPixels_cons, ih hd.2, drawPixel_getV]
    have hsame : (∃ q ∈ ps, (drawPixel p.1 p.2 s).cell q.1 q.2 = true) ↔ ∃ q ∈ ps, s.cell q.1 q.2 = true := by
      refine exists_congr fun q => and_congr_right fun hq => ?_
      have : ¬(q.1 = p.1 ∧ q.2 = p.2) := fun hh => hd.1 (Prod.ext hh.1 hh.2 ▸ hq)
      rw [drawPixel_cell, if_neg this]
    by_cases h1 : ∃ q ∈ ps, s.cell q.1 q.2 = true
    · rw [if_pos (hsame.mpr h1), if_pos]
      obtain ⟨q, hq, hc⟩ := h1
      exact ⟨q, .tail _ hq, hc⟩
    · rw [if_neg fun hh => h1 (hsame.mp hh)]
      by_cases h2 : s.cell p.1 p.2 = true
      · rw [if_pos ⟨rfl, h2⟩, if_pos ⟨p, .head _, h2⟩]
      · rw [if_neg fun hh => h2 hh.2, if_neg]
        rintro ⟨q, hq, hc⟩
        rcases List.mem_cons.mp hq with rfl | hq
        · exact h2 hc
        · exact h1 ⟨q, hq, hc⟩

/-- The pixels that row `r` of a sprite with byte `b` lights, left to right (R141). -/
def rowPixels (x0 y0 r : Nat) (b : Byte) : List (Fin 64 × Fin 32) :=
  (spriteCols.filter (spriteBit b)).map (fun c => (wrapCol (x0 + c.val), wrapRow (y0 + r)))

theorem drawCols_eq (x0 y0 r : Nat) (b : Byte) (cols : List (Fin 8)) (s : State) :
    drawCols x0 (wrapRow (y0 + r)) b cols s = drawPixels
      ((cols.filter (spriteBit b)).map (fun c => (wrapCol (x0 + c.val), wrapRow (y0 + r)))) s := by
  induction cols generalizing s with
  | nil => rfl
  | cons c cols ih =>
    rw [drawCols, ih]
    cases h : spriteBit b c <;> simp [h]

/-- The pixels that the rows of a sprite at `I` light. -/
def spritePixels (s : State) (x0 y0 : Nat) (rows : List Nat) : List (Fin 64 × Fin 32) :=
  rows.flatMap (fun r => rowPixels x0 y0 r (s.mem.read (s.addrAt r)))

theorem spritePixels_congr {s t : State} (hm : t.mem = s.mem) (hi : t.index = s.index) (x0 y0 : Nat)
    (rows : List Nat) : spritePixels t x0 y0 rows = spritePixels s x0 y0 rows := by
  simp only [spritePixels, State.addrAt, hm, hi]

/-- A row inside memory is drawn, then the others. -/
theorem drawRows_ok {s : State} {x0 y0 r : Nat} (h : s.addrAt r ≤ 0xFFF) (rest : List Nat) :
    drawRows x0 y0 (r :: rest) s =
      drawRows x0 y0 rest (drawPixels (rowPixels x0 y0 r (s.mem.read (s.addrAt r))) s) := by
  have e : memRead s (s.addrAt r) = some (s.mem.read (s.addrAt r)) := by rw [memRead_eq, if_pos h]
  simp only [drawRows, e, drawCols_eq, rowPixels]

/-- Rows inside memory draw exactly the sprite's pixels. -/
theorem drawRows_inBounds {s : State} {x0 y0 : Nat} {rows : List Nat} (h : ∀ r ∈ rows, s.addrAt r ≤ 0xFFF) :
    drawRows x0 y0 rows s = drawPixels (spritePixels s x0 y0 rows) s := by
  induction rows generalizing s with
  | nil => rfl
  | cons r rows ih =>
    rw [drawRows_ok (h r (.head _))]
    obtain ⟨f, v, hs⟩ := drawPixels_cases (rowPixels x0 y0 r (s.mem.read (s.addrAt r))) s
    have hsame := spritePixels_congr (s := s)
      (t := drawPixels (rowPixels x0 y0 r (s.mem.read (s.addrAt r))) s) (by rw [hs]) (by rw [hs]) x0 y0 rows
    refine (ih (s := drawPixels (rowPixels x0 y0 r (s.mem.read (s.addrAt r))) s) fun q hq => ?_).trans ?_
    · rw [hs]; exact h q (.tail _ hq)
    · rw [hsame]; exact (drawPixels_append ..).symm

/-- Rows inside memory, then one that is not: the first ones stay drawn (R50). -/
theorem drawRows_append {s : State} {x0 y0 : Nat} {rows : List Nat} (h : ∀ r ∈ rows, s.addrAt r ≤ 0xFFF)
    (rest : List Nat) : drawRows x0 y0 (rows ++ rest) s = drawRows x0 y0 rest (drawRows x0 y0 rows s) := by
  induction rows generalizing s with
  | nil => rfl
  | cons r rows ih =>
    rw [List.cons_append, drawRows_ok (h r (.head _)), drawRows_ok (h r (.head _))]
    obtain ⟨f, v, hs⟩ := drawPixels_cases (rowPixels x0 y0 r (s.mem.read (s.addrAt r))) s
    refine ih fun q hq => ?_
    rw [hs]; exact h q (.tail _ hq)

theorem drawRows_fail {s : State} {x0 y0 r : Nat} (h : 0xFFF < s.addrAt r) (rest : List Nat) :
    drawRows x0 y0 (r :: rest) s = s.setErr (.outOfBoundsAccess (s.addrAt r)) := by
  rw [drawRows, memRead_eq, if_neg (by omega)]; rfl

/-- The rows that a draw reaches: those before the first one out of bounds. -/
def rowsInside (s : State) (rows : List Nat) : List Nat := rows.takeWhile (fun r => decide (s.addrAt r ≤ 0xFFF))

theorem rowsInside_congr {s t : State} (hi : t.index = s.index) (rows : List Nat) :
    rowsInside t rows = rowsInside s rows := by
  have h : t.addrAt = s.addrAt := funext fun r => by simp only [State.addrAt, hi]
  simp only [rowsInside, h]

/-- Everything the rows of a sprite do, for every sprite: the pixels of the rows inside memory, and `ERR` with an
address above 0xFFF if a row is outside. -/
theorem drawRows_eq (x0 y0 : Nat) (rows : List Nat) (s : State) :
    ∃ e, drawRows x0 y0 rows s = (drawPixels (spritePixels s x0 y0 (rowsInside s rows)) s).setErr e ∧
      (e = s.err ∨ ∃ r ∈ rows, 0xFFF < s.addrAt r ∧ e = .outOfBoundsAccess (s.addrAt r)) := by
  induction rows generalizing s with
  | nil => exact ⟨s.err, rfl, .inl rfl⟩
  | cons r rows ih =>
    by_cases h : s.addrAt r ≤ 0xFFF
    · have hin : rowsInside s (r :: rows) = r :: rowsInside s rows := by simp [rowsInside, h]
      obtain ⟨f, v, hs⟩ := drawPixels_cases (rowPixels x0 y0 r (s.mem.read (s.addrAt r))) s
      obtain ⟨e, h1, h2⟩ := ih (drawPixels (rowPixels x0 y0 r (s.mem.read (s.addrAt r))) s)
      have hi : (drawPixels (rowPixels x0 y0 r (s.mem.read (s.addrAt r))) s).index = s.index := by rw [hs]
      have hm : (drawPixels (rowPixels x0 y0 r (s.mem.read (s.addrAt r))) s).mem = s.mem := by rw [hs]
      rw [rowsInside_congr hi, spritePixels_congr hm hi] at h1
      refine ⟨e, ?_, ?_⟩
      · rw [drawRows_ok h, h1, hin]
        exact congrArg (State.setErr · e) (drawPixels_append ..).symm
      · rw [hs] at h2
        exact h2.imp id fun ⟨q, hq, h⟩ => ⟨q, .tail _ hq, h⟩
    · have hin : rowsInside s (r :: rows) = [] := by simp [rowsInside, h]
      rw [drawRows_fail (by omega), hin]
      exact ⟨_, rfl, .inr ⟨r, .head _, by omega, rfl⟩⟩

/-- The pixels of distinct rows, all below 32, are distinct: 8 columns are fewer than 64 (R141). -/
theorem spritePixels_nodup_of_rows (s : State) (x0 y0 : Nat) {rows : List Nat} (hd : rows.Nodup)
    (hn : ∀ r ∈ rows, r < 32) : (spritePixels s x0 y0 rows).Nodup := by
  refine List.nodup_flatMap.mpr ⟨fun r _ => ?_, ?_⟩
  · refine List.Nodup.map_on (fun c _ d _ hcd => ?_) (List.Nodup.filter _ (by decide))
    have := congrArg (fun p => p.1.val) hcd
    simp only [wrapCol] at this
    exact Fin.ext (by omega)
  · refine hd.imp_of_mem fun {a b} ha hb hab => ?_
    have ha := hn a ha
    have hb := hn b hb
    intro p hpa hpb
    obtain ⟨c, -, rfl⟩ := List.mem_map.mp hpa
    obtain ⟨d, -, hcd⟩ := List.mem_map.mp hpb
    have := congrArg (fun p => p.2.val) hcd
    simp only [wrapRow] at this
    exact hab (by omega)

/-- The pixels of up to 15 rows are distinct, also when only the rows inside memory are drawn. -/
theorem spritePixels_nodup (s : State) (x0 y0 : Nat) {n : Nat} (hn : n < 32) :
    (spritePixels s x0 y0 (List.range n)).Nodup :=
  spritePixels_nodup_of_rows s x0 y0 List.nodup_range fun r hr => by rw [List.mem_range] at hr; omega

theorem spritePixels_inside_nodup (s : State) (x0 y0 : Nat) {n : Nat} (hn : n < 32) :
    (spritePixels s x0 y0 (rowsInside s (List.range n))).Nodup :=
  spritePixels_nodup_of_rows s x0 y0 (List.nodup_range.sublist (List.takeWhile_sublist _)) fun r hr => by
    have := (List.takeWhile_sublist _).subset hr
    rw [List.mem_range] at this; omega

/-- Membership among a sprite's pixels is the lighting relation of R141. -/
theorem mem_spritePixels {s : State} {x0 y0 n : Nat} (h : ∀ r, r < n → s.addrAt r ≤ 0xFFF) (px : Fin 64)
    (py : Fin 32) : (px, py) ∈ spritePixels s x0 y0 (List.range n) ↔ SpriteLights s x0 y0 n px py := by
  have hcols : ∀ c : Fin 8, c ∈ spriteCols := by decide
  simp only [spritePixels, rowPixels, List.mem_flatMap, List.mem_range, List.mem_map, List.mem_filter, Prod.mk.injEq,
    SpriteLights]
  constructor
  · rintro ⟨r, hr, c, ⟨-, hb⟩, rfl, rfl⟩
    exact ⟨r, c.val, _, hr, c.isLt, by rw [memRead_eq]; exact if_pos (h r hr), hb, rfl, rfl⟩
  · rintro ⟨r, c, b, hr, hc, hb, hbit, hx, hy⟩
    rw [memRead_eq] at hb
    have hle := h r hr
    simp only [State.addrAt] at hle
    rw [if_pos hle, Option.some.injEq] at hb
    refine ⟨r, hr, ⟨c, hc⟩, ⟨hcols _, ?_⟩, Fin.ext hx.symm, Fin.ext hy.symm⟩
    rw [← hb] at hbit
    exact hbit

end Sys2Proof.Machine
end

