-- ==== Sys2Proof/Laws/PerInstr.lean ====
section
/-! SUPPORT. Statements made for every instruction, one lemma per constructor: decoding its word gives it back
(`RoundTrip`), and its word matches its own row of the opcode map (`RowMatch`). -/

namespace Sys2Proof.Laws.RoundTrip

/-- Decoding the word of an instruction gives the instruction, with every operand. -/
def Statement (i : Instr) : Prop := decodeWord (encode i) = .ok i

theorem cls : Statement .cls := rfl
theorem ret : Statement .ret := rfl
theorem jp (nnn : Addr12) : Statement (.jp nnn) := by simp [Statement, encode, decodeWord]
theorem call (nnn : Addr12) : Statement (.call nnn) := by simp [Statement, encode, decodeWord]
theorem seImm (x : Reg) (kk : Byte) : Statement (.seImm x kk) := by simp [Statement, encode, decodeWord]
theorem sneImm (x : Reg) (kk : Byte) : Statement (.sneImm x kk) := by simp [Statement, encode, decodeWord]
theorem seReg (x y : Reg) : Statement (.seReg x y) := by simp [Statement, encode, decodeWord, decodeFam5]
theorem ldImm (x : Reg) (kk : Byte) : Statement (.ldImm x kk) := by simp [Statement, encode, decodeWord]
theorem addImm (x : Reg) (kk : Byte) : Statement (.addImm x kk) := by simp [Statement, encode, decodeWord]
theorem ldReg (x y : Reg) : Statement (.ldReg x y) := by simp [Statement, encode, decodeWord, decodeFam8]
theorem orReg (x y : Reg) : Statement (.orReg x y) := by simp [Statement, encode, decodeWord, decodeFam8]
theorem andReg (x y : Reg) : Statement (.andReg x y) := by simp [Statement, encode, decodeWord, decodeFam8]
theorem xorReg (x y : Reg) : Statement (.xorReg x y) := by simp [Statement, encode, decodeWord, decodeFam8]
theorem addReg (x y : Reg) : Statement (.addReg x y) := by simp [Statement, encode, decodeWord, decodeFam8]
theorem subReg (x y : Reg) : Statement (.subReg x y) := by simp [Statement, encode, decodeWord, decodeFam8]
theorem shr (x y : Reg) : Statement (.shr x y) := by simp [Statement, encode, decodeWord, decodeFam8]
theorem subnReg (x y : Reg) : Statement (.subnReg x y) := by simp [Statement, encode, decodeWord, decodeFam8]
theorem shl (x y : Reg) : Statement (.shl x y) := by simp [Statement, encode, decodeWord, decodeFam8]
theorem sneReg (x y : Reg) : Statement (.sneReg x y) := by simp [Statement, encode, decodeWord, decodeFam9]
theorem ldI (nnn : Addr12) : Statement (.ldI nnn) := by simp [Statement, encode, decodeWord]
theorem jpV0 (nnn : Addr12) : Statement (.jpV0 nnn) := by simp [Statement, encode, decodeWord]
theorem rnd (x : Reg) (kk : Byte) : Statement (.rnd x kk) := by simp [Statement, encode, decodeWord]
theorem drw (x y : Reg) (n : Fin 16) : Statement (.drw x y n) := by simp [Statement, encode, decodeWord]
theorem skp (x : Reg) : Statement (.skp x) := by simp [Statement, encode, decodeWord, decodeFamE]
theorem sknp (x : Reg) : Statement (.sknp x) := by simp [Statement, encode, decodeWord, decodeFamE]
theorem ldVxDT (x : Reg) : Statement (.ldVxDT x) := by simp [Statement, encode, decodeWord, decodeFamF]
theorem ldVxK (x : Reg) : Statement (.ldVxK x) := by simp [Statement, encode, decodeWord, decodeFamF]
theorem ldDTVx (x : Reg) : Statement (.ldDTVx x) := by simp [Statement, encode, decodeWord, decodeFamF]
theorem ldSTVx (x : Reg) : Statement (.ldSTVx x) := by simp [Statement, encode, decodeWord, decodeFamF]
theorem addIVx (x : Reg) : Statement (.addIVx x) := by simp [Statement, encode, decodeWord, decodeFamF]
theorem ldFVx (x : Reg) : Statement (.ldFVx x) := by simp [Statement, encode, decodeWord, decodeFamF]
theorem ldBVx (x : Reg) : Statement (.ldBVx x) := by simp [Statement, encode, decodeWord, decodeFamF]
theorem ldMemVx (x : Reg) : Statement (.ldMemVx x) := by simp [Statement, encode, decodeWord, decodeFamF]
theorem ldVxMem (x : Reg) : Statement (.ldVxMem x) := by simp [Statement, encode, decodeWord, decodeFamF]

end Sys2Proof.Laws.RoundTrip

namespace Sys2Proof.Laws.RowMatch

/-- The word of an instruction matches the instruction's row of the opcode map on every fixed bit (R64). -/
def Statement (i : Instr) : Prop := i.row.isMatch (encode i) = true

theorem cls : Statement .cls := rfl
theorem ret : Statement .ret := rfl
theorem jp (nnn : Addr12) : Statement (.jp nnn) := beq_iff_eq.mpr (wordA_mask ..)
theorem call (nnn : Addr12) : Statement (.call nnn) := beq_iff_eq.mpr (wordA_mask ..)
theorem seImm (x : Reg) (kk : Byte) : Statement (.seImm x kk) := beq_iff_eq.mpr (wordXK_mask_fam ..)
theorem sneImm (x : Reg) (kk : Byte) : Statement (.sneImm x kk) := beq_iff_eq.mpr (wordXK_mask_fam ..)
theorem seReg (x y : Reg) : Statement (.seReg x y) := beq_iff_eq.mpr (wordXYN_mask ..)
theorem ldImm (x : Reg) (kk : Byte) : Statement (.ldImm x kk) := beq_iff_eq.mpr (wordXK_mask_fam ..)
theorem addImm (x : Reg) (kk : Byte) : Statement (.addImm x kk) := beq_iff_eq.mpr (wordXK_mask_fam ..)
theorem ldReg (x y : Reg) : Statement (.ldReg x y) := beq_iff_eq.mpr (wordXYN_mask ..)
theorem orReg (x y : Reg) : Statement (.orReg x y) := beq_iff_eq.mpr (wordXYN_mask ..)
theorem andReg (x y : Reg) : Statement (.andReg x y) := beq_iff_eq.mpr (wordXYN_mask ..)
theorem xorReg (x y : Reg) : Statement (.xorReg x y) := beq_iff_eq.mpr (wordXYN_mask ..)
theorem addReg (x y : Reg) : Statement (.addReg x y) := beq_iff_eq.mpr (wordXYN_mask ..)
theorem subReg (x y : Reg) : Statement (.subReg x y) := beq_iff_eq.mpr (wordXYN_mask ..)
theorem shr (x y : Reg) : Statement (.shr x y) := beq_iff_eq.mpr (wordXYN_mask ..)
theorem subnReg (x y : Reg) : Statement (.subnReg x y) := beq_iff_eq.mpr (wordXYN_mask ..)
theorem shl (x y : Reg) : Statement (.shl x y) := beq_iff_eq.mpr (wordXYN_mask ..)
theorem sneReg (x y : Reg) : Statement (.sneReg x y) := beq_iff_eq.mpr (wordXYN_mask ..)
theorem ldI (nnn : Addr12) : Statement (.ldI nnn) := beq_iff_eq.mpr (wordA_mask ..)
theorem jpV0 (nnn : Addr12) : Statement (.jpV0 nnn) := beq_iff_eq.mpr (wordA_mask ..)
theorem rnd (x : Reg) (kk : Byte) : Statement (.rnd x kk) := beq_iff_eq.mpr (wordXK_mask_fam ..)
theorem drw (x y : Reg) (n : Fin 16) : Statement (.drw x y n) := beq_iff_eq.mpr (wordXYN_mask_fam ..)
theorem skp (x : Reg) : Statement (.skp x) := beq_iff_eq.mpr (wordXK_mask ..)
theorem sknp (x : Reg) : Statement (.sknp x) := beq_iff_eq.mpr (wordXK_mask ..)
theorem ldVxDT (x : Reg) : Statement (.ldVxDT x) := beq_iff_eq.mpr (wordXK_mask ..)
theorem ldVxK (x : Reg) : Statement (.ldVxK x) := beq_iff_eq.mpr (wordXK_mask ..)
theorem ldDTVx (x : Reg) : Statement (.ldDTVx x) := beq_iff_eq.mpr (wordXK_mask ..)
theorem ldSTVx (x : Reg) : Statement (.ldSTVx x) := beq_iff_eq.mpr (wordXK_mask ..)
theorem addIVx (x : Reg) : Statement (.addIVx x) := beq_iff_eq.mpr (wordXK_mask ..)
theorem ldFVx (x : Reg) : Statement (.ldFVx x) := beq_iff_eq.mpr (wordXK_mask ..)
theorem ldBVx (x : Reg) : Statement (.ldBVx x) := beq_iff_eq.mpr (wordXK_mask ..)
theorem ldMemVx (x : Reg) : Statement (.ldMemVx x) := beq_iff_eq.mpr (wordXK_mask ..)
theorem ldVxMem (x : Reg) : Statement (.ldVxMem x) := beq_iff_eq.mpr (wordXK_mask ..)

end Sys2Proof.Laws.RowMatch
end

