-- ==== Sys2Proof/Tests/Slice0.lean ====
section
/-! SUPPORT. Tests: ill-formed terms that the checks refuse, words written out from the encodings of
spec/opcode_table.json, one-step tests with expected results from spec/95_test_vectors.md (its ids are named), and
for each statement with hypotheses a concrete witness that meets them. -/

namespace Sys2Proof.Tests

open Sys2Proof Sys2Proof.Machine

/-- The state that a result goes on in; the given one if it does not. -/
def orElse (r : Result) (s : State) : State :=
  match r with
  | .next t => t
  | .fault _ | .refused _ => s

/-- The start state of a single-instruction vector: `PC = 0x200`, everything else as after RESET. -/
def start : State := State.reset.setPc 0x200

/-- One STEP of the word at `PC`. -/
def stepWord (w : Nat) (s : State) : State := orElse (step (s.withFetchWord 16 w)) s

/-- One event of the machine with the default `FONT`. -/
def event (e : Event) (s : State) : State := orElse (handle Config.defaultFont e s) s

/-- Put a byte into memory, as a test harness does (R26). -/
def poke (a : Nat) (b : Byte) (s : State) : State := s.setMem (s.mem.write a b)

/-- Light a cell, as a test harness does (R26). -/
def light (px : Fin 64) (py : Fin 32) (s : State) : State :=
  s.setFb (s.fb.set py.val (BitVec.twoPow 64 px.val))

/-- Give the call stack `n` entries, all of them `w`. -/
def withCalls (n : Fin 17) (w : Word) (s : State) : State := { s with sp := n, stack := Vector.replicate 16 w }

/-! ## Well-formedness: each check refuses an ill-formed term -/

theorem test_wf_register_number : regNumberOk 16 = false ∧ regNumberOk 15 = true := by decide
theorem test_wf_row_count : rowCountOk 16 = false ∧ rowCountOk 15 = true := by decide
theorem test_wf_byte_immediate : byteImmOk 256 = false ∧ byteImmOk 255 = true := by decide
theorem test_wf_address_immediate : addrImmOk 4096 = false ∧ addrImmOk 4095 = true := by decide
theorem test_wf_instruction : Instr.wellFormed (.drw 15 15 15) = true := by decide
theorem test_wf_row_mismatch : OpcodeRow.isMatch ⟨"SE_Vx__Vy", 0xF00F, 0x5000⟩ 0x5AB1 = false := by decide
theorem test_wf_unknown_words : [0x0000, 0x5AB1, 0x8128, 0x9121, 0xE0A0, 0xF008].all (fun w => !wordKnown w) = true := by
  decide
theorem test_wf_rom_too_large (b : Byte) :
    romOk (List.replicate 3585 b) = false ∧ romOk (List.replicate 3584 b) = true := by
  simp only [romOk, List.length_replicate]; decide

/-! ## Decoding: words written out bit by bit from the table's encodings, one for every constructor -/

theorem test_decode_family0 :
    decodeWord 0b0000000011100000 = .ok .cls ∧ decodeWord 0b0000000011101110 = .ok .ret := by decide
theorem test_decode_family1 : decodeWord 0b0001_001010101000 = .ok (.jp 0x2A8) := by decide
theorem test_decode_family2 : decodeWord 0b0010_111100001001 = .ok (.call 0xF09) := by decide
theorem test_decode_family3 : decodeWord 0b0011_1010_00000001 = .ok (.seImm 0xA 0x01) := by decide
theorem test_decode_family4 : decodeWord 0b0100_0101_11110000 = .ok (.sneImm 5 0xF0) := by decide
theorem test_decode_family5 : decodeWord 0b0101_1010_1011_0000 = .ok (.seReg 0xA 0xB) := by decide
theorem test_decode_family6 : decodeWord 0b0110_1010_01111011 = .ok (.ldImm 0xA 0x7B) := by decide
theorem test_decode_family7 : decodeWord 0b0111_0001_10000000 = .ok (.addImm 1 0x80) := by decide
theorem test_decode_family8_logic :
    decodeWord 0b1000_0001_0010_0000 = .ok (.ldReg 1 2) ∧ decodeWord 0b1000_0001_0010_0001 = .ok (.orReg 1 2) ∧
    decodeWord 0b1000_0001_0010_0010 = .ok (.andReg 1 2) ∧ decodeWord 0b1000_0001_0010_0011 = .ok (.xorReg 1 2) := by
  decide
theorem test_decode_family8_arithmetic :
    decodeWord 0b1000_0001_0010_0100 = .ok (.addReg 1 2) ∧ decodeWord 0b1000_0001_0010_0101 = .ok (.subReg 1 2) ∧
    decodeWord 0b1000_0001_0010_0110 = .ok (.shr 1 2) ∧ decodeWord 0b1000_0001_0010_0111 = .ok (.subnReg 1 2) ∧
    decodeWord 0b1000_0001_0010_1110 = .ok (.shl 1 2) := by decide
theorem test_decode_family9 : decodeWord 0b1001_0011_1100_0000 = .ok (.sneReg 3 0xC) := by decide
theorem test_decode_familyA : decodeWord 0b1010_001100000000 = .ok (.ldI 0x300) := by decide
theorem test_decode_familyB : decodeWord 0b1011_010100000000 = .ok (.jpV0 0x500) := by decide
theorem test_decode_familyC : decodeWord 0b1100_0011_00001111 = .ok (.rnd 3 0x0F) := by decide
theorem test_decode_familyD : decodeWord 0b1101_0000_0001_0101 = .ok (.drw 0 1 5) := by decide
theorem test_decode_familyE :
    decodeWord 0b1110_0100_10011110 = .ok (.skp 4) ∧ decodeWord 0b1110_0100_10100001 = .ok (.sknp 4) := by decide
theorem test_decode_familyF_registers :
    decodeWord 0b1111_0010_00000111 = .ok (.ldVxDT 2) ∧ decodeWord 0b1111_0011_00001010 = .ok (.ldVxK 3) ∧
    decodeWord 0b1111_0010_00010101 = .ok (.ldDTVx 2) ∧ decodeWord 0b1111_0001_00011000 = .ok (.ldSTVx 1) := by decide
theorem test_decode_familyF_memory :
    decodeWord 0b1111_0010_00011110 = .ok (.addIVx 2) ∧ decodeWord 0b1111_1010_00101001 = .ok (.ldFVx 0xA) ∧
    decodeWord 0b1111_0001_00110011 = .ok (.ldBVx 1) ∧ decodeWord 0b1111_0010_01010101 = .ok (.ldMemVx 2) ∧
    decodeWord 0b1111_0001_01100101 = .ok (.ldVxMem 1) := by decide
/-- The unknown words of the decode samples of T1. -/
theorem test_decode_unknown :
    [0x0000, 0x00E1, 0x00FE, 0x00FF, 0x00C1, 0x0123, 0x5121, 0x8128, 0x812F, 0x9121, 0xE0A0, 0xE19F, 0xF008, 0xF030,
      0xF075, 0xF085, 0xF166, 0xFFFF].all (fun w => decodeWord w == .error (.unknownOpcode w)) = true := by decide
theorem test_decode_truncated : decode [0x12] = .error .truncated := by decide
theorem test_decode_table_word : decodeTableWord 16 0xD015 = some (.drw 0 1 5) ∧ decodeTableWord 16 0xF008 = none := by
  decide

/-! ## Fetch, events and errors (T1, T8, T9) -/

/-- T1.5: STEP right after RESET. -/
theorem test_step_after_reset :
    (orElse (step State.reset) start).err = .unknownOpcode 0xF090 ∧ (orElse (step State.reset) start).pc = 2 := by decide
/-- T1.2. -/
theorem test_fetch_second_byte_out_of_bounds : orElse (step (start.setPc 0xFFF)) start =
    (start.setPc 0xFFF).setErr (.outOfBoundsAccess 0x1000) := by decide
/-- T1.6: an odd `PC`, first byte high. -/
theorem test_fetch_odd_pc :
    let t := orElse (step (poke 0x202 0x7B (poke 0x201 0x6A (start.setPc 0x201)))) start
    t.getV 0xA = 0x7B ∧ t.pc = 0x203 := by decide
/-- The row's own word, placed and run as the first instruction after RESET. -/
theorem test_placed_word_runs :
    let t := orElse (step (State.reset.withFetchWord 16 0x60AA)) start
    t.getV 0 = 0xAA ∧ t.pc = 2 ∧ t.err = .none := by decide
/-- T8.2. -/
theorem test_tick : (event .tick { start with dt := 255, st := 1 }).dt = 254 ∧
    (event .tick { start with dt := 0, st := 1 }).dt = 0 := by decide
/-- T8.4. -/
theorem test_keys : (event (.keys 0x0100) (start.setKey 0x00FF)).key = 0x0100 := by decide
/-- T9.4: a reload keeps everything but the program region, `PC` and `MODE`. -/
theorem test_reload :
    let t := event (.load [0x12, 0x00]) (poke 0x204 0xA1 (poke 5 0x77 { start with dt := 7, pc := 0x206 }))
    memRead t 0x200 = some 0x12 ∧ memRead t 0x204 = some 0 ∧ memRead t 5 = some 0x77 ∧ t.dt = 7 ∧ t.pc = 0x200 := by
  decide
/-- T9.6 (font). -/
theorem test_reset_font : memRead (event .reset (poke 0 0x12 start)) 0 = some 0xF0 ∧
    memRead State.reset 79 = some 0x80 ∧ memRead State.reset 80 = some 0 := by decide

/-- R42: RESET of a machine with another `FONT` puts that table back. -/
theorem test_reset_other_font :
    let t := orElse (handle (Vector.replicate 80 0x3C) .reset (poke 0 0x12 start)) start
    memRead t 0 = some 0x3C ∧ memRead t 79 = some 0x3C ∧ memRead t 80 = some 0 ∧ t.mem.wf = true := by decide

/-! ## Control transfer (T2) -/

/-- T2.1. -/
theorem test_jp : (stepWord 0x12A8 start).pc = 0x2A8 := by decide
/-- T2.3. -/
theorem test_call : (stepWord 0x2210 start).stack[0] = 0x202 ∧ (stepWord 0x2210 start).sp = 1 ∧
    (stepWord 0x2210 start).pc = 0x210 := by decide
/-- T2.5, STEP 17. -/
theorem test_call_full : (stepWord 0x2222 (withCalls 16 0x300 start)).err = .stackOverflow ∧
    (stepWord 0x2222 (withCalls 16 0x300 start)).pc = 0x202 := by decide
/-- The decode sample 00EE of T1. -/
theorem test_ret : (stepWord 0x00EE (withCalls 1 0x300 start)).pc = 0x300 ∧
    (stepWord 0x00EE (withCalls 1 0x300 start)).sp = 0 := by decide
/-- T2.4. -/
theorem test_ret_empty : (stepWord 0x00EE start).err = .stackUnderflow ∧ (stepWord 0x00EE start).pc = 0x202 := by decide
/-- T2.7. -/
theorem test_jpV0 : (stepWord 0xBFFF (start.setV 0 0xFF)).pc = 0x10FE ∧
    (stepWord 0xBFFF (start.setV 0 0xFF)).err = .none := by decide
/-- T2.9: the register is `V[0]`. -/
theorem test_jpV0_register : (stepWord 0xB500 (start.setV 5 0x10)).pc = 0x500 := by decide

/-! ## Skips (T3) -/

/-- T3.1, T3.2. -/
theorem test_seImm : (stepWord 0x3A00 start).pc = 0x204 ∧ (stepWord 0x3A01 start).pc = 0x202 := by decide
/-- T3.3, T3.4. -/
theorem test_sneImm : (stepWord 0x4A00 start).pc = 0x202 ∧ (stepWord 0x4A01 start).pc = 0x204 := by decide
/-- T3.5, T3.6. -/
theorem test_seReg : (stepWord 0x5AB0 ((start.setV 0xA 9).setV 0xB 9)).pc = 0x204 ∧
    (stepWord 0x5AB0 ((start.setV 0xA 9).setV 0xB 8)).pc = 0x202 := by decide
/-- T3.7, T3.8. -/
theorem test_sneReg : (stepWord 0x9AB0 ((start.setV 0xA 9).setV 0xB 9)).pc = 0x202 ∧
    (stepWord 0x9AB0 ((start.setV 0xA 9).setV 0xB 8)).pc = 0x204 := by decide

/-! ## Load, arithmetic, logic, random (T4) -/

/-- `V[1]`, `V[0xF]` after the word, from the given `V[1]`, `V[2]` and `V[0xF] = 0x5A`. -/
def alu (w : Nat) (a b : Byte) : Byte × Byte :=
  let t := stepWord w (((start.setV 1 a).setV 2 b).setV 0xF 0x5A)
  (t.getV 1, t.getV 0xF)

theorem test_ldImm : (stepWord 0x6FAB start).getV 0xF = 0xAB := by decide
theorem test_addImm : alu 0x7101 0xFF 0 = (0x00, 0x5A) ∧ alu 0x7105 0x0A 0 = (0x0F, 0x5A) := by decide
theorem test_ldReg : alu 0x8120 0x55 0xAA = (0xAA, 0x5A) := by decide
theorem test_orReg : alu 0x8121 0x7F 0x80 = (0xFF, 0x5A) := by decide
theorem test_andReg : alu 0x8122 0xFF 0x01 = (0x01, 0x5A) := by decide
theorem test_xorReg : alu 0x8123 0xFF 0x01 = (0xFE, 0x5A) := by decide
theorem test_addReg : alu 0x8124 0xFF 0x01 = (0x00, 1) ∧ alu 0x8124 0x7F 0x80 = (0xFF, 0) := by decide
theorem test_addReg_flag : (stepWord 0x8F14 ((start.setV 0xF 0xFF).setV 1 1)).getV 0xF = 1 ∧
    (stepWord 0x81F4 ((start.setV 0xF 1).setV 1 0xFF)).getV 1 = 0 := by decide
theorem test_subReg : alu 0x8125 0x55 0xAA = (0xAB, 0) ∧ alu 0x8125 0x80 0x80 = (0x00, 1) := by decide
theorem test_shr : alu 0x8126 0x7F 0x80 = (0x3F, 1) ∧ alu 0x8126 0x80 0x80 = (0x40, 0) := by decide
theorem test_subnReg : alu 0x8127 0x55 0xAA = (0x55, 1) ∧ alu 0x8127 0xFF 0x01 = (0x02, 0) := by decide
theorem test_shl : alu 0x812E 0xFF 0x01 = (0xFE, 1) ∧ alu 0x812E 0x55 0xAA = (0xAA, 0) := by decide
/-- The random table of T4: the byte is masked and one byte is consumed. -/
theorem test_rnd :
    let t := stepWord 0xC30F (start.supplyRnd [0xB7, 0x11])
    t.getV 3 = 0x07 ∧ t.rndInput = [0x11] ∧ t.rndDrawn = 1 := by decide

/-! ## Index register and memory (T5) -/

theorem test_ldI : (stepWord 0xAFFF start).index = 0x0FFF := by decide
/-- T5.2 and T5.2b. -/
theorem test_addIVx :
    let t := stepWord 0xF21E ((start.setIndex 0x0FF0).setV 2 0x20)
    t.index = 0x1010 ∧ t.getV 0xF = 1 ∧ (stepWord 0xF21E ((start.setIndex 0xFFFF).setV 2 1)).getV 0xF = 0 := by decide
theorem test_addIVx_flag :
    let t := stepWord 0xFF1E ((start.setIndex 0x0FFE).setV 0xF 1)
    t.index = 0x0FFF ∧ t.getV 0xF = 0 := by decide
/-- T5.3. -/
theorem test_ldFVx : (stepWord 0xF029 (start.setV 0 0x1A)).index = 50 := by decide
/-- T5.4. -/
theorem test_ldBVx :
    let t := stepWord 0xF033 ((start.setIndex 0x300).setV 0 234)
    memRead t 0x300 = some 2 ∧ memRead t 0x301 = some 3 ∧ memRead t 0x302 = some 4 ∧ t.index = 0x300 := by decide
/-- T5.5. -/
theorem test_ldBVx_end :
    let t := stepWord 0xF033 ((start.setIndex 0xFFE).setV 0 234)
    memRead t 0xFFE = some 2 ∧ memRead t 0xFFF = some 3 ∧ t.err = .outOfBoundsAccess 0x1000 ∧ t.pc = 0x202 := by decide
/-- T5.10. -/
theorem test_ldMemVx :
    let t := stepWord 0xF255 ((((start.setIndex 0x300).setV 0 0x11).setV 2 0x33).setV 3 0x44)
    memRead t 0x300 = some 0x11 ∧ memRead t 0x302 = some 0x33 ∧ memRead t 0x303 = some 0 := by decide
/-- T5.8. -/
theorem test_ldMemVx_end : (stepWord 0xF055 (start.setIndex 0x1000)).err = .outOfBoundsAccess 0x1000 := by decide
/-- From MEM[0x300..0x302] as in program P3. -/
theorem test_ldVxMem :
    let t := stepWord 0xF265 (poke 0x302 4 (poke 0x301 3 (poke 0x300 2 (start.setIndex 0x300))))
    t.getV 0 = 2 ∧ t.getV 1 = 3 ∧ t.getV 2 = 4 ∧ t.getV 3 = 0 := by decide
/-- T5.7. -/
theorem test_ldVxMem_end :
    let t := stepWord 0xF165 (poke 0xFFF 0x77 (((start.setIndex 0xFFF).setV 0 0xAA).setV 1 0xBB))
    t.getV 0 = 0x77 ∧ t.getV 1 = 0xBB ∧ t.err = .outOfBoundsAccess 0x1000 := by decide

/-! ## Display (T6) -/

/-- T6.1. -/
theorem test_cls : (stepWord 0x00E0 (light 5 7 (start.setV 0xF 1))).cell 5 7 = false ∧
    (stepWord 0x00E0 (start.setV 0xF 1)).getV 0xF = 1 := by decide
/-- T6.4: wrap at both edges. -/
theorem test_drw_wrap :
    let t := stepWord 0xD012 (poke 0x301 0xFF (poke 0x300 0xC0 (((start.setIndex 0x300).setV 0 62).setV 1 31)))
    t.cell 62 31 = true ∧ t.cell 0 31 = false ∧ t.cell 63 0 = true ∧ t.cell 5 0 = true ∧ t.cell 6 0 = false ∧
      t.getV 0xF = 0 := by decide
/-- T6.9. -/
theorem test_drw_collision_and_end :
    let t := stepWord 0xD012 (poke 0xFFF 0x81 (light 0 0 (start.setIndex 0xFFF)))
    t.cell 0 0 = false ∧ t.cell 7 0 = true ∧ t.getV 0xF = 1 ∧ t.err = .outOfBoundsAccess 0x1000 ∧ t.pc = 0x202 := by
  decide

/-! ## Keypad and timers (T7) -/

/-- T7.1, T7.5: the low four bits name the key. -/
theorem test_skp : (stepWord 0xE49E ((start.setV 4 0x0A).setKey 0x0400)).pc = 0x204 ∧
    (stepWord 0xE09E ((start.setV 0 0x1A).setKey 0x0400)).pc = 0x204 := by decide
/-- T7.3, T7.4. -/
theorem test_sknp : (stepWord 0xE4A1 ((start.setV 4 0x0A).setKey 0x0400)).pc = 0x202 ∧
    (stepWord 0xE4A1 (start.setV 4 0x0A)).pc = 0x204 := by decide
/-- T7.7. -/
theorem test_ldVxDT : (stepWord 0xF207 (start.setDT 0x3C)).getV 2 = 0x3C := by decide
/-- T7.8. -/
theorem test_ldDTVx : (stepWord 0xF015 (start.setV 0 5)).dt = 5 ∧ (stepWord 0xF015 (start.setV 0 5)).st = 0 := by decide
/-- T7.9. -/
theorem test_ldSTVx : (stepWord 0xF118 (start.setV 1 0x1E)).st = 0x1E ∧
    (stepWord 0xF118 (start.setV 1 0x1E)).sound = true := by decide
/-- T7.10. -/
theorem test_ldVxK : (stepWord 0xF30A (start.setKey 0x8002)).getV 3 = 1 ∧
    (stepWord 0xF30A (start.setKey 0x8002)).mode = .running := by decide
/-- T7.11, T7.12. -/
theorem test_ldVxK_wait : (stepWord 0xF30A start).mode = .waitingForKey 3 ∧
    (orElse (step ((start.setMode (.waitingForKey 3)).setKey 0x0880)) start).getV 3 = 7 := by decide

/-! ## Witnesses: every hypothesis of a statement is met, each clause at a boundary -/

theorem witness_DecodedWordEncodesBack : decodeWord 0xFF65 = .ok (.ldVxMem 0xF) := by decide

theorem witness_DecoderFollowsOpcodeMap : decodeWord 0x8FFE = .ok (.shl 0xF 0xF) ∧
    (Instr.shl 0xF 0xF).row ∈ opcodeTable ∧ (0x8FFE : Word) &&& (Instr.shl 0xF 0xF).row.mask = 0x800E ∧
    (Instr.shl 0xF 0xF).row.value = 0x800E := by decide

/-- One word of each line of the table of unknown opcodes, beside a known one. -/
theorem witness_UnknownOpcodesByFamily :
    decodeWord 0x00EF = .error (.unknownOpcode 0x00EF) ∧ decodeWord 0x5FFF = .error (.unknownOpcode 0x5FFF) ∧
    decodeWord 0x800D = .error (.unknownOpcode 0x800D) ∧ decodeWord 0x9001 = .error (.unknownOpcode 0x9001) ∧
    decodeWord 0xE0A2 = .error (.unknownOpcode 0xE0A2) ∧ decodeWord 0xF064 = .error (.unknownOpcode 0xF064) := by decide

theorem witness_StepRunsDecodedInstruction :
    let s := poke 0xFFF 0xA8 (poke 0xFFE 0x12 (start.setPc 0xFFE))
    s.mode = .running ∧ memRead s s.pc.toNat = some 0x12 ∧ memRead s (s.pc.toNat + 1) = some 0xA8 ∧
    decodeWord (BitVec.ofNat 16 ((0x12 : Byte).toNat * 256 + (0xA8 : Byte).toNat)) = .ok (.jp 0x2A8) ∧
    (Instr.jp 0x2A8).wellFormed = true := by decide

theorem witness_FailedFetchChangesNothing :
    (start.setPc 0xFFF).mode = .running ∧ 0xFFF ≤ (start.setPc 0xFFF).pc.toNat ∧ 0xFFF ≤ (start.setPc 0x1000).pc.toNat := by
  decide

theorem witness_UnknownOpcodeOnlyAdvancesPc : start.mode = .running ∧ fetch (start.setPc 0) = .ok 0xF090 ∧
    ∀ r ∈ opcodeTable, (0xF090 : Word) &&& r.mask ≠ r.value := by decide

theorem witness_KeyWaitPollsTheKeypad :
    let s := (start.setMode (.waitingForKey 3)).setKey 0x8000
    s.mode = .waitingForKey 3 ∧ s.keyDown 15 = true ∧ (∀ j, j < 15 → s.keyDown j = false) ∧
    ∀ k, (start.setMode (.waitingForKey 3)).keyDown k = false := by decide

/-- A STEP answers, from a run and from a key wait (`StepPcFollowsTheTable`, `StepReportsItsError`). -/
theorem witness_step_answers : step State.reset = .next (orElse (step State.reset) start) ∧
    step (start.setMode (.waitingForKey 3)) = .next (start.setMode (.waitingForKey 3)) := ⟨rfl, rfl⟩

theorem witness_StepKeepsInvariant : State.reset.Inv ∧ step State.reset = .next (orElse (step State.reset) start) :=
  ⟨⟨rfl, by decide, by decide, trivial⟩, rfl⟩

theorem witness_ReachableStatesMeetInvariant :
    Reachable Config.defaultFont (event (.load [0x12, 0x00]) (State.resetWithFont Config.defaultFont)) :=
  .event (e := .load [0x12, 0x00]) .reset rfl

theorem witness_SingleByteWrite : start.mem.wf = true ∧ 0xFFF ≤ 0xFFF ∧ 0xFFF < 0x1000 := by decide

theorem witness_PlacedWordIsRun : (start.setPc 0xFFF).mem.wf = true ∧ decodeTableWord 16 0xFF65 = some (.ldVxMem 0xF) := by
  decide

/-- Each store is changed by one of its writers. -/
theorem witness_StoresHaveTheirOwnWriters :
    memRead (orElse (exec (.ldBVx 0) ((start.setIndex 0xFFD).setV 0 9)) start) 0xFFF ≠ memRead start 0xFFF ∧
    memRead (orElse (exec (.ldMemVx 0) ((start.setIndex 0xFFF).setV 0 9)) start) 0xFFF ≠ memRead start 0xFFF ∧
    (orElse (exec .cls (light 63 31 start)) start).cell 63 31 ≠ (light 63 31 start).cell 63 31 ∧
    (orElse (exec (.drw 0 0 1) start) start).cell 0 0 ≠ start.cell 0 0 ∧
    (orElse (exec .ret (withCalls 1 0x300 start)) start).sp ≠ (withCalls 1 0x300 start).sp ∧
    (orElse (exec (.call 0) (withCalls 15 0x300 start)) start).stack[15] ≠ (withCalls 15 0x300 start).stack[15] ∧
    (orElse (exec (.ldDTVx 0) (start.setV 0 9)) start).dt ≠ start.dt ∧
    (orElse (exec (.ldSTVx 0) (start.setV 0 9)) start).st ≠ start.st ∧
    (orElse (exec (.ldI 9) start) start).index ≠ start.index ∧
    (orElse (exec (.addIVx 0) (start.setV 0 9)) start).index ≠ start.index ∧
    (orElse (exec (.ldFVx 0) (start.setV 0 9)) start).index ≠ start.index ∧
    (orElse (exec (.ldVxK 0) start) start).mode ≠ start.mode := by decide

theorem witness_FlagRegisterWriters :
    (orElse (exec (.subReg 0 0) start) start).getV 0xF ≠ start.getV 0xF ∧
    (orElse (exec (.ldImm 0xF 9) start) start).getV 0xF ≠ start.getV 0xF := by decide

theorem witness_UnobservableStateStaysUnobservable :
    let s := withCalls 1 0x300 State.reset
    let stack := (Vector.replicate 16 (0x777 : Word)).set 0 0x300
    (∀ k : Fin 16, k.val < s.sp.val → stack[k.val] = s.stack[k.val]) ∧ stack ≠ s.stack ∧
    step s = .next (orElse (step s) start) ∧
    step { s with st := 9, stack := stack } = .next (orElse (step { s with st := 9, stack := stack }) start) :=
  ⟨by decide, by decide, rfl, rfl⟩

theorem witness_KeyWaitIsEnteredAndLeft :
    let s := start.withFetchWord 16 0xF30A
    let w := start.setMode (.waitingForKey 3)
    (s.mode = .running ∧ (event .step s).mode = .waitingForKey 3) ∧
    (w.mode = .waitingForKey 3 ∧ (event .step (w.setKey 1)).mode = .running ∧ (event .reset w).mode = .running ∧
      (event (.load []) w).mode = .running) := by decide

theorem witness_OnlyRndConsumesRandomBytes :
    ((start.withFetchWord 16 0xC3FF).mode = .running ∧ fetch (start.withFetchWord 16 0xC3FF) = .ok 0xC3FF ∧
      decodeWord 0xC3FF = .ok (.rnd 3 0xFF)) ∧ Event.tick ≠ .step ∧
    handle Config.defaultFont .tick start = .next (event .tick start) ∧
    (event .step ((start.supplyRnd [5]).withFetchWord 16 0xC3FF)).rndDrawn ≠ start.rndDrawn :=
  ⟨by decide, by decide, rfl, by decide⟩

theorem witness_ResetValues : 79 < 80 ∧ 80 ≤ 80 ∧ 0xFFF ≤ 0xFFF := by decide

theorem witness_LoadPlacesTheProgram (b : Byte) : (List.replicate 3584 b).length ≤ 3584 ∧
    3583 < (List.replicate 3584 b).length ∧ ([] : List Byte).length ≤ 3584 ∧ 0x200 + ([] : List Byte).length ≤ 0xFFF := by
  simp only [List.length_replicate]; decide

theorem witness_TooLargeProgramIsRefused (b : Byte) : 3584 < (List.replicate 3585 b).length := by
  simp only [List.length_replicate]; decide

theorem witness_SoundLastsAsLongAsTheTimer : (start.setST 2).st.toNat ≤ 2 ∧ soundingTicks 2 (start.setST 2) = 2 := by decide

theorem witness_SelfJumpStaysForEver : (start.withFetchWord 16 0x1200).atSelfJump = true := by decide

theorem witness_CallPushesAndJumps : (0 : Fin 16).val = start.sp.val ∧ (15 : Fin 16).val = (withCalls 15 0x300 start).sp.val ∧
    (withCalls 16 0x300 start).sp.val = 16 ∧ (start.withFetchWord 16 0x2210).mode = .running ∧
    fetch (start.withFetchWord 16 0x2210) = .ok 0x2210 ∧ decodeWord 0x2210 = .ok (.call 0x210) := by decide

theorem witness_ReturnPopsPc : (0 : Fin 16).val + 1 = (withCalls 1 0x300 start).sp.val ∧
    (15 : Fin 16).val + 1 = (withCalls 16 0x300 start).sp.val ∧ start.sp.val = 0 := by decide

theorem witness_CallsReturnLastInFirstOut :
    start.sp.val + (List.replicate 16 ((0x302 : Word), (0x300 : Addr12))).length ≤ 16 := by decide

theorem witness_RegisterSkips : 1 < 16 ∧ 1 ≠ 0 ∧ 15 < 16 ∧ 15 ≠ 0 := by decide

/-- A destination other than VF (`AddSetsCarry`, `SubtractSetsNoBorrow`, `ShiftsSetShiftedOutBit`). -/
theorem witness_destination_not_flag : (0xE : Reg) ≠ 0xF := by decide

theorem witness_RandomByteIsMasked : (start.supplyRnd [5, 6]).rndInput = [5, 6] ∧ start.rndInput = [] ∧
    (0x7F : Byte).getLsbD 7 = false := by decide

theorem witness_DecimalDigitsAreStored : start.mem.wf = true ∧ (start.setIndex 0xFFD).index.toNat + 2 ≤ 0xFFF := by decide

/-- `RegistersAreStored`, `RegistersAreLoaded`: the last place where all sixteen fit. -/
theorem witness_registers_inside : start.mem.wf = true ∧ (start.setIndex 0xFF0).index.toNat + (15 : Reg).val ≤ 0xFFF := by
  decide

theorem witness_StoresStopAtTheEndOfMemory : start.mem.wf = true ∧
    (0xFFF < (start.setIndex 0xFFE).index.toNat + 2 ∧ (start.setIndex 0xFFE).index.toNat + 1 ≤ 0xFFF) ∧
    (0xFFF < (start.setIndex 0xFFF).index.toNat + (1 : Reg).val ∧ (start.setIndex 0xFFF).index.toNat + (0 : Reg).val ≤ 0xFFF) ∧
    0xFFF < (start.setIndex 0x1000).index.toNat + (0 : Reg).val := by decide

theorem witness_LoadsStopAtTheEndOfMemory : 0xFFF < (start.setIndex 0xFFF).index.toNat + (1 : Reg).val ∧ (0 : Reg) ≤ 1 ∧
    (start.setIndex 0xFFF).index.toNat + (0 : Reg).val ≤ 0xFFF := by decide

theorem witness_StoreLoadRoundTrip :
    let s := (start.setIndex 0xFFE).setV 1 9
    let t := orElse (exec (.ldMemVx 1) s) start
    s.mem.wf = true ∧ s.index.toNat + (1 : Reg).val ≤ 0xFFF ∧ exec (.ldMemVx 1) s = .next t ∧
    (t.setV 1 0).mem = t.mem ∧ (t.setV 1 0).index = s.index ∧ (t.setV 1 0).getV 1 ≠ s.getV 1 :=
  ⟨by decide, by decide, rfl, rfl, by decide, by decide⟩

/-- A one-row sprite in the last byte of memory. -/
def drawState : State := poke 0xFFF 0x81 (start.setIndex 0xFFF)

theorem witness_DrawInvertsTheSpritesCells :
    ((0 : Fin 16).val = 0 ∧ drawState.index.toNat + (1 : Fin 16).val ≤ 0x1000) ∧
    SpriteLights drawState 0 0 1 7 0 ∧ ¬ SpriteLights drawState 0 0 1 1 0 ∧
    (∀ px py, drawState.cell px py = false) ∧
    SpriteLights (light 7 0 drawState) 0 0 1 7 0 ∧ (light 7 0 drawState).cell 7 0 = true := by
  refine ⟨by decide, ⟨0, 7, 0x81, by decide⟩, ?_, ?_, ⟨0, 7, 0x81, by decide⟩, by decide⟩
  · rintro ⟨r, c, b, hr, hc, hb, hbit, hx, -⟩
    have hr0 : r = 0 := by omega
    have hc1 : c = 1 := by have : (1 : Fin 64).val = 1 := rfl; omega
    subst hr0 hc1
    have hb2 : memRead drawState (drawState.index.toNat + 0) = some 0x81 := by decide
    rw [hb2, Option.some.injEq] at hb
    subst hb
    revert hbit; decide
  · intro px py
    show (Vector.replicate 32 (0 : BitVec 64))[py.val].getLsbD px.val = false
    simp

theorem witness_DrawStopsAtTheEndOfMemory :
    ((1 : Fin 16) < 15 ∧ drawState.index.toNat + (1 : Fin 16).val = max drawState.index.toNat 0x1000) ∧
    ((0 : Fin 16) < 1 ∧ (start.setIndex 0x1000).index.toNat + (0 : Fin 16).val = max (start.setIndex 0x1000).index.toNat 0x1000) := by
  decide

theorem witness_DrawTwiceRestoresTheScreen :
    let t := orElse (exec (.drw 0 1 1) drawState) start
    let u := orElse (exec (.drw 0 1 2) drawState) start
    (0 : Reg) ≠ 0xF ∧ (0xE : Reg) ≠ 0xF ∧
    exec (.drw 0 1 1) drawState = .next t ∧ exec (.drw 0 1 1) t = .next (orElse (exec (.drw 0 1 1) t) start) ∧
    exec (.drw 0 1 2) drawState = .next u ∧ exec (.drw 0 1 2) u = .next (orElse (exec (.drw 0 1 2) u) start) ∧
    t.cell 7 0 ≠ drawState.cell 7 0 ∧ u.cell 7 0 ≠ drawState.cell 7 0 ∧ u.err = .outOfBoundsAccess 0x1000 :=
  ⟨by decide, by decide, rfl, rfl, rfl, rfl, by decide, by decide, by decide⟩

theorem witness_WaitForKeyTakesTheLowest :
    (start.setKey 0x8000).keyDown 15 = true ∧ (∀ j, j < 15 → (start.setKey 0x8000).keyDown j = false) ∧
    (start.setKey 0x0001).keyDown 0 = true ∧ ∀ k, start.keyDown k = false := by decide

end Sys2Proof.Tests
end

section
/-! SUPPORT. The state after RESET, element by element, for any `FONT`, and the table of R24 assembled from it. -/

namespace Sys2Proof.Machine

section ResetState

variable (font : Config.Font)

@[simp] theorem resetWithFont_getV (x : Reg) : (State.resetWithFont font).getV x = 0 :=
  Vector.getElem_replicate x.isLt

@[simp] theorem resetWithFont_stack (k : Fin 16) : (State.resetWithFont font).stack[k.val] = 0 :=
  Vector.getElem_replicate k.isLt

/-- No bit of the keypad vector is 1. -/
@[simp] theorem resetWithFont_keyDown (k : Fin 16) : (State.resetWithFont font).keyDown k = false :=
  BitVec.getLsbD_zero

/-- Every row of the frame buffer is the word 0. -/
@[simp] theorem resetWithFont_cell (px : Fin 64) (py : Fin 32) : (State.resetWithFont font).cell px py = false := by
  have hrow : (State.resetWithFont font).fb[py.val] = 0 := Vector.getElem_replicate py.isLt
  simp [State.cell, hrow]

theorem memRead_resetWithFont_font {a : Nat} (h : a < 80) :
    memRead (State.resetWithFont font) a = some font[a] := by
  rw [memRead_eq, if_pos (by omega), read_resetWithFont, dif_pos h]

theorem memRead_resetWithFont_above {a : Nat} (hlo : 80 ≤ a) (hhi : a ≤ 0xFFF) :
    memRead (State.resetWithFont font) a = some 0 := by
  rw [memRead_eq, if_pos hhi, read_resetWithFont, dif_neg (by omega)]

end ResetState

/-- Settles O24: the elements that no `FONT` reaches have the reset value by definition, and memory is the table and
then zeros (`read_resetWithFont`). -/
theorem resetValues : Obligations.ResetValues := by
  intro font
  exact ⟨resetWithFont_getV font, rfl, rfl, resetWithFont_stack font, rfl, rfl, rfl, resetWithFont_keyDown font,
    resetWithFont_cell font, rfl, fun _ h => memRead_resetWithFont_font font h,
    fun _ hlo hhi => memRead_resetWithFont_above font hlo hhi⟩

end Sys2Proof.Machine
end

section
/-! SUPPORT. Stores that all lie inside memory: what a read finds after them, their frame (which `ERR` is not in), and
the single-byte write of R45 as the sequence of one cell. -/

namespace Sys2Proof.Machine

/-- Stores to distinct addresses are each read back. -/
theorem memRead_storeCells_inBounds {cells : List Host.Cell} (h : ∀ c ∈ cells, c.1 ≤ 0xFFF)
    (hd : (cells.map Prod.fst).Nodup) {s : State} (hm : s.mem.wf = true) {c : Host.Cell} (hc : c ∈ cells) :
    memRead (storeCells cells s) c.1 = some c.2 := by
  rw [storeCells_inBounds h, setMem_memRead, if_pos (h c hc), foldl_write_read h hd hm hc]

/-- `storeCells_onlyChanges` without `ERR`, which only a store past the end writes. -/
theorem storeCells_inBounds_onlyChanges {cells : List Host.Cell} (h : ∀ c ∈ cells, c.1 ≤ 0xFFF) (s : State) :
    OnlyChanges (StoredBytes cells) s (storeCells cells s) := by
  intro e he
  by_cases herr : e = .err
  · subst herr
    rw [storeCells_inBounds h]
    exact setMem_err s _
  · exact storeCells_onlyChanges cells s e (not_or.mpr ⟨he, herr⟩)

/-- Settles O17: inside memory the two rules for stores at the one cell `(a, b)`, outside it the failing store. -/
theorem singleByteWrite : Obligations.SingleByteWrite := by
  intro s a b hm
  refine ⟨fun ha => ?_, fun ha => storeCells_fail ha b [] s⟩
  have hin : ∀ c ∈ [((a, b) : Host.Cell)], c.1 ≤ 0xFFF := List.forall_mem_singleton.mpr ha
  have hbyte : ∀ e, StoredBytes [(a, b)] e → e = .byte a := by
    rintro e ⟨c, hc, rfl⟩
    rw [List.mem_singleton.mp hc]
  exact ⟨memRead_storeCells_inBounds hin (List.nodup_singleton a) hm (List.mem_singleton_self (a, b)),
    (storeCells_inBounds_onlyChanges hin s).mono hbyte⟩

end Sys2Proof.Machine
end

section
/-! SUPPORT. What the decoder reads from a word is encoded by that same word (R62), so the word matches the
instruction's row of the opcode map (R64); a fetched word that matches no row is therefore not decoded. -/

namespace Sys2Proof

section Fields

variable {op : Word} {fam : BitVec 4} (hf : (fieldFam op).toNat = fam.toNat)
include hf

theorem wordA_of_fields : wordA fam (fieldNNN op) = op := by
  rw [← BitVec.eq_of_toNat_eq hf, wordA_fields]

theorem wordXK_of_fam : wordXK fam (fieldX op) (fieldKK op) = op := by
  rw [← BitVec.eq_of_toNat_eq hf, wordXK_fields]

theorem wordXK_of_fields {kk : Byte} (hk : (fieldKK op).toNat = kk.toNat) : wordXK fam (fieldX op) kk = op := by
  rw [← BitVec.eq_of_toNat_eq hk, wordXK_of_fam hf]

theorem wordXYN_of_fam : wordXYN fam (fieldX op) (fieldY op) (BitVec.ofFin (fieldN op)) = op := by
  rw [← BitVec.eq_of_toNat_eq hf, wordXYN_fields]

theorem wordXYN_of_fields {n : BitVec 4} (hn : (fieldN op).val = n.toNat) :
    wordXYN fam (fieldX op) (fieldY op) n = op := by
  have hN : BitVec.ofFin (fieldN op) = n := BitVec.eq_of_toNat_eq hn
  rw [← hN, wordXYN_of_fam hf]

end Fields

section Families

variable {op : Word} {i : Instr}

theorem encode_of_decodeFam0 (h : decodeFam0 op = .ok i) : encode i = op := by
  unfold decodeFam0 at h
  split at h <;> cases h <;> exact (BitVec.eq_of_toNat_eq ‹_›).symm

theorem encode_of_decodeFam5 (hf : (fieldFam op).toNat = 0x5) (h : decodeFam5 op = .ok i) : encode i = op := by
  unfold decodeFam5 at h
  split at h <;> cases h
  exact wordXYN_of_fields hf ‹_›

theorem encode_of_decodeFam8 (hf : (fieldFam op).toNat = 0x8) (h : decodeFam8 op = .ok i) : encode i = op := by
  unfold decodeFam8 at h
  split at h <;> cases h <;> exact wordXYN_of_fields hf ‹_›

theorem encode_of_decodeFam9 (hf : (fieldFam op).toNat = 0x9) (h : decodeFam9 op = .ok i) : encode i = op := by
  unfold decodeFam9 at h
  split at h <;> cases h
  exact wordXYN_of_fields hf ‹_›

theorem encode_of_decodeFamE (hf : (fieldFam op).toNat = 0xE) (h : decodeFamE op = .ok i) : encode i = op := by
  unfold decodeFamE at h
  split at h <;> cases h <;> exact wordXK_of_fields hf ‹_›

theorem encode_of_decodeFamF (hf : (fieldFam op).toNat = 0xF) (h : decodeFamF op = .ok i) : encode i = op := by
  unfold decodeFamF at h
  split at h <;> cases h <;> exact wordXK_of_fields hf ‹_›

/-- The decoder ignores no bit of a word (R62): by the family, then by the sub-opcode. -/
theorem encode_of_decodeWord (h : decodeWord op = .ok i) : encode i = op := by
  unfold decodeWord at h
  split at h
  case h_1 => exact encode_of_decodeFam0 h
  case h_2 hf => cases h; exact wordA_of_fields hf
  case h_3 hf => cases h; exact wordA_of_fields hf
  case h_4 hf => cases h; exact wordXK_of_fam hf
  case h_5 hf => cases h; exact wordXK_of_fam hf
  case h_6 hf => exact encode_of_decodeFam5 hf h
  case h_7 hf => cases h; exact wordXK_of_fam hf
  case h_8 hf => cases h; exact wordXK_of_fam hf
  case h_9 hf => exact encode_of_decodeFam8 hf h
  case h_10 hf => exact encode_of_decodeFam9 hf h
  case h_11 hf => cases h; exact wordA_of_fields hf
  case h_12 hf => cases h; exact wordA_of_fields hf
  case h_13 hf => cases h; exact wordXK_of_fam hf
  case h_14 hf => cases h; exact wordXYN_of_fam hf
  case h_15 hf => exact encode_of_decodeFamE hf h
  case h_16 =>
    have hlt := (fieldFam op).isLt
    exact encode_of_decodeFamF (by simp only [imp_false] at *; omega) h

end Families

/-! The row of an instruction. -/

theorem rowNumber_lt (i : Instr) : i.rowNumber < opcodeTable.length := by
  cases i <;> simp [Instr.rowNumber, opcodeTable, opcodeTableLow, opcodeTableHigh]

theorem row_mem_opcodeTable (i : Instr) : i.row ∈ opcodeTable := by
  rw [Instr.row, List.getD_eq_getElem _ _ (rowNumber_lt i)]
  exact List.getElem_mem _

open Laws in
/-- The lemmas of `RowMatch`, for every instruction. -/
theorem row_isMatch_encode (i : Instr) : i.row.isMatch (encode i) = true :=
  match i with
  | .cls => RowMatch.cls
  | .ret => RowMatch.ret
  | .jp _ => RowMatch.jp _
  | .call _ => RowMatch.call _
  | .seImm .. => RowMatch.seImm ..
  | .sneImm .. => RowMatch.sneImm ..
  | .seReg .. => RowMatch.seReg ..
  | .ldImm .. => RowMatch.ldImm ..
  | .addImm .. => RowMatch.addImm ..
  | .ldReg .. => RowMatch.ldReg ..
  | .orReg .. => RowMatch.orReg ..
  | .andReg .. => RowMatch.andReg ..
  | .xorReg .. => RowMatch.xorReg ..
  | .addReg .. => RowMatch.addReg ..
  | .subReg .. => RowMatch.subReg ..
  | .shr .. => RowMatch.shr ..
  | .subnReg .. => RowMatch.subnReg ..
  | .shl .. => RowMatch.shl ..
  | .sneReg .. => RowMatch.sneReg ..
  | .ldI _ => RowMatch.ldI _
  | .jpV0 _ => RowMatch.jpV0 _
  | .rnd .. => RowMatch.rnd ..
  | .drw .. => RowMatch.drw ..
  | .skp _ => RowMatch.skp _
  | .sknp _ => RowMatch.sknp _
  | .ldVxDT _ => RowMatch.ldVxDT _
  | .ldVxK _ => RowMatch.ldVxK _
  | .ldDTVx _ => RowMatch.ldDTVx _
  | .ldSTVx _ => RowMatch.ldSTVx _
  | .addIVx _ => RowMatch.addIVx _
  | .ldFVx _ => RowMatch.ldFVx _
  | .ldBVx _ => RowMatch.ldBVx _
  | .ldMemVx _ => RowMatch.ldMemVx _
  | .ldVxMem _ => RowMatch.ldVxMem _

/-- A decoded word matches the row of its instruction (R64). -/
theorem row_matches_of_decodeWord {op : Word} {i : Instr} (h : decodeWord op = .ok i) :
    op &&& i.row.mask = i.row.value := by
  have hm : i.row.isMatch op = true := encode_of_decodeWord h ▸ row_isMatch_encode i
  exact beq_iff_eq.mp hm

end Sys2Proof

namespace Sys2Proof.Machine

/-- Settles O8: of the four things a STEP can do (`step_cases`), the mode and the fetch leave the unknown opcode and
the run of an instruction, whose row the word would match. -/
theorem unknownOpcodeOnlyAdvancesPc : Obligations.UnknownOpcodeOnlyAdvancesPc := by
  intro s op hmode hfetch hrows
  obtain ⟨x, hwait, _⟩ | ⟨_, a, hfail, _⟩ | ⟨_, op', hok, _, hstep⟩ | ⟨_, op', i, hok, hdec, _⟩ := step_cases s
  · cases hmode.symm.trans hwait
  · cases hfetch.symm.trans hfail
  · cases hfetch.symm.trans hok
    exact hstep
  · cases hfetch.symm.trans hok
    exact absurd (row_matches_of_decodeWord hdec) (hrows i.row (row_mem_opcodeTable i))

end Sys2Proof.Machine
end

section
/-! SUPPORT. The two direct jumps 1nnn and 2nnn: the words they are read from (R61), the frame of a write to `PC`, and
what a push and a call do below and at the full stack (R92). -/

namespace Sys2Proof.Machine

/-- An instruction is read from the number of its own word. -/
theorem isWordOf_of_toNat_encode {i : Instr} {n : Nat} (h : Laws.RoundTrip.Statement i) (hn : (encode i).toNat = n) :
    IsWordOf n i := by
  rw [IsWordOf, ← hn, BitVec.ofNat_toNat, BitVec.setWidth_eq]
  exact h

theorem isWordOf_jp (nnn : Addr12) : IsWordOf (0x1000 + nnn.toNat) (.jp nnn) :=
  isWordOf_of_toNat_encode (Laws.RoundTrip.jp nnn) (wordA_toNat 1 nnn)

theorem isWordOf_call (nnn : Addr12) : IsWordOf (0x2000 + nnn.toNat) (.call nnn) :=
  isWordOf_of_toNat_encode (Laws.RoundTrip.call nnn) (wordA_toNat 2 nnn)

/-- A direct address as an operand is zero-extended. -/
@[simp] theorem addrImm_toNat (nnn : Addr12) : (addrImm nnn).toNat = nnn.toNat :=
  BitVec.toNat_setWidth_of_le (by decide)

theorem setPc_onlyChanges (s : State) (w : Word) : OnlyChanges (· = .pc) s (s.setPc w) := fun e he => by
  cases e <;> simp [Element.Same] at he ⊢

/-- Settles O32: the meaning of 1nnn is one write to `PC`. -/
theorem jumpSetsPc : Obligations.JumpSetsPc := fun s nnn =>
  ⟨isWordOf_jp nnn, s.setPc (addrImm nnn), rfl, addrImm_toNat nnn, setPc_onlyChanges s (addrImm nnn)⟩

section Push

variable {s : State}

/-- A push below 16 entries: `PC` goes to the entry `SP`, `SP` counts, and nothing else changes. -/
theorem pushPc_stores {k : Fin 16} (hk : k.val = s.sp.val) :
    ∃ t, pushPc s = some t ∧ t.stack[k.val] = s.pc ∧ t.sp.val = s.sp.val + 1 ∧
      OnlyChanges (fun e => e = .stack k ∨ e = .sp) s t := by
  obtain ⟨hlt, hpush⟩ | ⟨hfull, _⟩ := pushPc_cases s
  · refine ⟨_, hpush, by simp [hk], rfl, fun e he => ?_⟩
    obtain ⟨hstack, hsp⟩ := not_or.mp he
    cases e with
    | stack j =>
      have hj : s.sp.val ≠ j.val := fun h => hstack (congrArg _ (Fin.ext (hk.trans h).symm))
      exact Vector.getElem_set_ne hlt j.isLt hj
    | sp => exact absurd rfl hsp
    | rnd => exact ⟨rfl, rfl⟩
    | _ => rfl
  · omega

theorem pushPc_full (h : s.sp.val = 16) : pushPc s = none := by
  obtain ⟨hlt, _⟩ | ⟨_, hnone⟩ := pushPc_cases s
  · omega
  · exact hnone

end Push

/-- 2nnn below 16 entries: a push, then a jump (R92). -/
theorem exec_call_of_room {s : State} {k : Fin 16} (hk : k.val = s.sp.val) (nnn : Addr12) :
    ∃ t, exec (.call nnn) s = .next t ∧ t.stack[k.val] = s.pc ∧ t.sp.val = s.sp.val + 1 ∧
      t.pc.toNat = nnn.toNat ∧ OnlyChanges (fun e => e = .stack k ∨ e = .sp ∨ e = .pc) s t := by
  obtain ⟨t, hpush, hstack, hsp, honly⟩ := pushPc_stores hk
  refine ⟨t.setPc (addrImm nnn), by simp only [exec, execCall, hpush], hstack, hsp, addrImm_toNat nnn, ?_⟩
  exact (honly.mono fun _ h => h.imp_right .inl).trans
    ((setPc_onlyChanges t (addrImm nnn)).mono fun _ h => .inr (.inr h))

/-- 2nnn with the stack full: the error and nothing else (R92). -/
theorem exec_call_of_full {s : State} (h : s.sp.val = 16) (nnn : Addr12) :
    exec (.call nnn) s = .next { s with err := .stackOverflow } := by
  simp only [exec, execCall, pushPc_full h]
  rfl

/-- A STEP that fetches and decodes an instruction runs it in the advanced state (R82, R83). -/
theorem step_of_decodeWord {s : State} {op : Word} {i : Instr} (hmode : s.mode = .running)
    (hfetch : fetch s = .ok op) (hdec : decodeWord op = .ok i) : step s = exec i (enterExec s) := by
  simp only [step, hmode, hfetch, hdec]

/-- Settles O34: a call with room and a call on the full stack, and for the STEP the call with room in the state with
`PC` advanced by 2. -/
theorem callPushesAndJumps : Obligations.CallPushesAndJumps := by
  intro s nnn
  refine ⟨isWordOf_call nnn, fun k hk => exec_call_of_room hk nnn, fun hfull => exec_call_of_full hfull nnn, ?_⟩
  intro op k hmode hfetch hdec hk
  obtain ⟨t, hcall, hstack, _⟩ := exec_call_of_room (s := enterExec s) hk nnn
  exact ⟨t, (step_of_decodeWord hmode hfetch hdec).trans hcall, hstack⟩

end Sys2Proof.Machine
end

section
/-! SUPPORT. The skips: what a second advance of `PC` under a condition does (R104), and the two skips on an immediate
(R100, R101). -/

namespace Sys2Proof.Machine

@[simp] theorem skipIf_pc (c : Bool) (s : State) : (skipIf c s).pc = if c then s.pc + 2 else s.pc := by
  cases c <;> rfl

theorem skipIf_onlyChanges (c : Bool) (s : State) : OnlyChanges (· = .pc) s (skipIf c s) :=
  match c with
  | true => setPc_onlyChanges s (s.pc + 2)
  | false => OnlyChanges.refl _ s

/-- The number of a format XK word, with the fields in the order of their places. -/
theorem wordXK_toNat_eq (fam : BitVec 4) (x : Reg) (kk : Byte) :
    (wordXK fam x kk).toNat = 4096 * fam.toNat + 256 * x.val + kk.toNat := by
  rw [wordXK_toNat, Nat.mul_comm _ 4096, Nat.mul_comm _ 256]

theorem isWordOf_seImm (x : Reg) (kk : Byte) : IsWordOf (0x3000 + 256 * x.val + kk.toNat) (.seImm x kk) :=
  isWordOf_of_toNat_encode (Laws.RoundTrip.seImm x kk) (wordXK_toNat_eq 3 x kk)

theorem isWordOf_sneImm (x : Reg) (kk : Byte) : IsWordOf (0x4000 + 256 * x.val + kk.toNat) (.sneImm x kk) :=
  isWordOf_of_toNat_encode (Laws.RoundTrip.sneImm x kk) (wordXK_toNat_eq 4 x kk)

/-- A skip on the equality of two bytes, as numbers. -/
theorem skipIf_beq_pc (a b : Byte) (s : State) :
    (skipIf (a == b) s).pc = if a.toNat = b.toNat then s.pc + 2 else s.pc := by
  simp [BitVec.toNat_inj]

/-- A skip on the inequality of two bytes, as numbers. -/
theorem skipIf_bne_pc (a b : Byte) (s : State) :
    (skipIf (a != b) s).pc = if a.toNat = b.toNat then s.pc else s.pc + 2 := by
  simp [BitVec.toNat_inj]

/-- Settles O37: each meaning is one `skipIf`, on the comparison of the register with the immediate. -/
theorem immediateSkips : Obligations.ImmediateSkips := fun s x kk =>
  ⟨isWordOf_seImm x kk, isWordOf_sneImm x kk,
    ⟨_, rfl, skipIf_beq_pc (s.getV x) kk s, skipIf_onlyChanges _ s⟩,
    ⟨_, rfl, skipIf_bne_pc (s.getV x) kk s, skipIf_onlyChanges _ s⟩⟩

end Sys2Proof.Machine
end

section
/-! SUPPORT. The instructions of format XK that write one register: the load of the immediate and its addition
(R111, R112). -/

namespace Sys2Proof.Machine

theorem isWordOf_ldImm (x : Reg) (kk : Byte) : IsWordOf (0x6000 + 256 * x.val + kk.toNat) (.ldImm x kk) :=
  isWordOf_of_toNat_encode (Laws.RoundTrip.ldImm x kk) (wordXK_toNat_eq 6 x kk)

theorem isWordOf_addImm (x : Reg) (kk : Byte) : IsWordOf (0x7000 + 256 * x.val + kk.toNat) (.addImm x kk) :=
  isWordOf_of_toNat_encode (Laws.RoundTrip.addImm x kk) (wordXK_toNat_eq 7 x kk)

/-- A register reads as the byte just written to it. -/
theorem setV_getV_self (s : State) (x : Reg) (b : Byte) : (s.setV x b).getV x = b := by
  rw [setV_getV, if_pos rfl]

/-- The register written with the sum of two bytes holds the sum of their numbers modulo 256 (R112). -/
theorem setV_getV_add_toNat (s : State) (x : Reg) (a b : Byte) :
    ((s.setV x (a + b)).getV x).toNat = (a.toNat + b.toNat) % 256 := by
  rw [setV_getV_self, BitVec.toNat_add]

/-- Settles O40: each meaning is one `setV`, of the immediate or of its sum with the register, so VF changes only as the
destination. -/
theorem immediateLoadAndAdd : Obligations.ImmediateLoadAndAdd := fun s x kk =>
  ⟨isWordOf_ldImm x kk, isWordOf_addImm x kk,
    ⟨_, rfl, setV_getV_self s x kk, setV_onlyChanges s x kk⟩,
    ⟨_, rfl, setV_getV_add_toNat s x (s.getV x) kk, setV_onlyChanges s x (s.getV x + kk)⟩⟩

end Sys2Proof.Machine
end

section
/-! SUPPORT. The two loads of `I` (R130, R132): the words they are read from, the frame of a write to `I`, and the
address of a glyph as a number. -/

namespace Sys2Proof.Machine

/-- The number of a format X word: the fixed family and low byte, then the register nibble. -/
theorem wordXK_toNat_fixed_add (fam : BitVec 4) (x : Reg) (kk : Byte) :
    (wordXK fam x kk).toNat = 4096 * fam.toNat + kk.toNat + 256 * x.val := by
  rw [wordXK_toNat_eq, Nat.add_right_comm]

theorem isWordOf_ldI (nnn : Addr12) : IsWordOf (0xA000 + nnn.toNat) (.ldI nnn) :=
  isWordOf_of_toNat_encode (Laws.RoundTrip.ldI nnn) (wordA_toNat 0xA nnn)

theorem isWordOf_ldFVx (x : Reg) : IsWordOf (0xF029 + 256 * x.val) (.ldFVx x) :=
  isWordOf_of_toNat_encode (Laws.RoundTrip.ldFVx x) (wordXK_toNat_fixed_add 0xF x 0x29)

theorem setIndex_onlyChanges (s : State) (w : Word) : OnlyChanges (· = .index) s (s.setIndex w) := fun e he => by
  cases e <;> simp [Element.Same] at he ⊢

/-- The last glyph is at 75, so the product is not truncated. -/
theorem glyphAddr_toNat (b : Byte) : (glyphAddr b).toNat = 5 * (b.toNat % 16) := by
  have hlt : 5 * (b.toNat % 16) < 2 ^ 16 := by omega
  rw [glyphAddr, BitVec.toNat_ofNat, Nat.mod_eq_of_lt hlt]

/-- Settles O46: each meaning is one `setIndex`, of the zero-extended immediate or of the glyph's address. -/
theorem indexLoads : Obligations.IndexLoads := fun s nnn x =>
  ⟨isWordOf_ldI nnn, isWordOf_ldFVx x,
    ⟨_, rfl, addrImm_toNat nnn, setIndex_onlyChanges s (addrImm nnn)⟩,
    ⟨_, rfl, glyphAddr_toNat (s.getV x), setIndex_onlyChanges s (glyphAddr (s.getV x))⟩⟩

end Sys2Proof.Machine
end

section
/-! SUPPORT. The clear of the screen (R140): the word it is read from, the frame of a write to `FB`, and the cells of the
buffer of zero rows. -/

namespace Sys2Proof.Machine

theorem isWordOf_cls : IsWordOf 0x00E0 .cls :=
  isWordOf_of_toNat_encode Laws.RoundTrip.cls rfl

theorem setFb_onlyChanges (s : State) (f : Vector (BitVec 64) 32) :
    OnlyChanges (fun e => ∃ px py, e = .cell px py) s (s.setFb f) := fun e he => by
  cases e <;> simp [Element.Same] at he ⊢

/-- Every cell of the buffer of 32 zero rows is 0. -/
theorem setFb_zero_cell (s : State) (px : Fin 64) (py : Fin 32) :
    (s.setFb (Vector.replicate 32 0)).cell px py = false := by
  rw [setFb_cell, Vector.getElem_replicate]
  exact BitVec.getLsbD_zero

/-- Settles O54: the meaning of 00E0 is one write to `FB`, of 32 zero rows. -/
theorem clearScreen : Obligations.ClearScreen :=
  ⟨isWordOf_cls, fun s => ⟨_, rfl, setFb_zero_cell s, setFb_onlyChanges s _⟩⟩

end Sys2Proof.Machine
end

section
/-! SUPPORT. The TICK (R173): the frames of the writes to `DT`, `ST` and `ERR`, which it is made of, and the decrement as
a number. -/

namespace Sys2Proof.Machine

theorem setErr_onlyChanges (s : State) (e : Err) : OnlyChanges (· = .err) s (s.setErr e) := fun e he => by
  cases e <;> simp [Element.Same] at he ⊢

theorem setDT_onlyChanges (s : State) (b : Byte) : OnlyChanges (· = .dt) s (s.setDT b) := fun e he => by
  cases e <;> simp [Element.Same] at he ⊢

theorem setST_onlyChanges (s : State) (b : Byte) : OnlyChanges (· = .st) s (s.setST b) := fun e he => by
  cases e <;> simp [Element.Same] at he ⊢

/-- Natural-number subtraction has the floor at 0 that the decrement tests for. -/
@[simp] theorem countDown_toNat (t : Byte) : (countDown t).toNat = t.toNat - 1 := by
  by_cases h : t = 0
  · simp [countDown, h]
  · rw [countDown, if_neg h]
    bv_omega

@[simp] theorem tickEvent_dt (s : State) : (tickEvent s).dt = countDown s.dt := rfl

@[simp] theorem tickEvent_st (s : State) : (tickEvent s).st = countDown s.st := rfl

/-- A TICK is three writes, so its frame is theirs in sequence. -/
theorem tickEvent_onlyChanges (s : State) :
    OnlyChanges (fun e => e = .dt ∨ e = .st ∨ e = .err) s (tickEvent s) :=
  have hErr := (setErr_onlyChanges s .none).mono fun _ h => .inr (.inr h)
  have hDT := (setDT_onlyChanges (beginEvent s) (countDown s.dt)).mono fun _ h => .inl h
  have hST := (setST_onlyChanges _ (countDown s.st)).mono fun _ h => .inr (.inl h)
  hErr.trans (hDT.trans hST)

/-- Settles O28: each timer of the ticked state is the decrement of its own old value, and the frame is that of the
three writes. -/
theorem tickCountsDown : Obligations.TickCountsDown := fun _ s =>
  ⟨tickEvent s, rfl, by rw [tickEvent_dt, countDown_toNat], by rw [tickEvent_st, countDown_toNat],
    tickEvent_onlyChanges s⟩

end Sys2Proof.Machine
end

section
/-! SUPPORT. The encoder and the decoder against each other and against the opcode map (R60 to R67): every
instruction is read back from its word, every word that a row matches is the word of an instruction of that row, and
the words that are no instruction, by the fields the decoder looks at. -/

namespace Sys2Proof

open Laws in
/-- The lemmas of `RoundTrip`, for every instruction. -/
theorem decodeWord_encode (i : Instr) : decodeWord (encode i) = .ok i :=
  match i with
  | .cls => RoundTrip.cls
  | .ret => RoundTrip.ret
  | .jp _ => RoundTrip.jp _
  | .call _ => RoundTrip.call _
  | .seImm .. => RoundTrip.seImm ..
  | .sneImm .. => RoundTrip.sneImm ..
  | .seReg .. => RoundTrip.seReg ..
  | .ldImm .. => RoundTrip.ldImm ..
  | .addImm .. => RoundTrip.addImm ..
  | .ldReg .. => RoundTrip.ldReg ..
  | .orReg .. => RoundTrip.orReg ..
  | .andReg .. => RoundTrip.andReg ..
  | .xorReg .. => RoundTrip.xorReg ..
  | .addReg .. => RoundTrip.addReg ..
  | .subReg .. => RoundTrip.subReg ..
  | .shr .. => RoundTrip.shr ..
  | .subnReg .. => RoundTrip.subnReg ..
  | .shl .. => RoundTrip.shl ..
  | .sneReg .. => RoundTrip.sneReg ..
  | .ldI _ => RoundTrip.ldI _
  | .jpV0 _ => RoundTrip.jpV0 _
  | .rnd .. => RoundTrip.rnd ..
  | .drw .. => RoundTrip.drw ..
  | .skp _ => RoundTrip.skp _
  | .sknp _ => RoundTrip.sknp _
  | .ldVxDT _ => RoundTrip.ldVxDT _
  | .ldVxK _ => RoundTrip.ldVxK _
  | .ldDTVx _ => RoundTrip.ldDTVx _
  | .ldSTVx _ => RoundTrip.ldSTVx _
  | .addIVx _ => RoundTrip.addIVx _
  | .ldFVx _ => RoundTrip.ldFVx _
  | .ldBVx _ => RoundTrip.ldBVx _
  | .ldMemVx _ => RoundTrip.ldMemVx _
  | .ldVxMem _ => RoundTrip.ldVxMem _

/-- Settles O1: the two bytes of an instruction are those of its word, which decodes to it. -/
theorem encodedInstructionDecodesBack : Obligations.EncodedInstructionDecodesBack := fun i rest =>
  decode_bytes (decodeWord_encode i) rest

/-- Settles O2: `encode_of_decodeWord`, family by family. -/
theorem decodedWordEncodesBack : Obligations.DecodedWordEncodesBack := fun _ _ h => encode_of_decodeWord h

/-! A word under a mask of the opcode map: the fixed bits that the row gives it. -/

section Masks

variable {op : Word} {fam : BitVec 4}

theorem fieldFam_of_mask (h : op &&& 0xF000 = wordA fam 0) : fieldFam op = fam := by
  rw [← wordA_fields op, wordA_mask] at h
  simpa using congrArg fieldFam h

theorem wordA_of_mask (h : op &&& 0xF000 = wordA fam 0) : wordA fam (fieldNNN op) = op := by
  rw [← fieldFam_of_mask h, wordA_fields]

theorem wordXK_of_mask_fam (h : op &&& 0xF000 = wordA fam 0) : wordXK fam (fieldX op) (fieldKK op) = op := by
  rw [← fieldFam_of_mask h, wordXK_fields]

theorem wordXYN_of_mask_fam (h : op &&& 0xF000 = wordA fam 0) :
    wordXYN fam (fieldX op) (fieldY op) (BitVec.ofFin (fieldN op)) = op := by
  rw [← fieldFam_of_mask h, wordXYN_fields]

theorem wordXYN_of_mask {n : BitVec 4} (h : op &&& 0xF00F = wordXYN fam 0 0 n) :
    wordXYN fam (fieldX op) (fieldY op) n = op := by
  rw [← wordXYN_fields op, wordXYN_mask] at h
  have hfam : fieldFam op = fam := by simpa using congrArg fieldFam h
  have hn : BitVec.ofFin (fieldN op) = n := by
    simpa using congrArg (fun w => (BitVec.ofFin (fieldN w) : BitVec 4)) h
  rw [← hfam, ← hn, wordXYN_fields]

theorem wordXK_of_mask {kk : Byte} (h : op &&& 0xF0FF = wordXK fam 0 kk) : wordXK fam (fieldX op) kk = op := by
  rw [← wordXK_fields op, wordXK_mask] at h
  have hfam : fieldFam op = fam := by simpa using congrArg fieldFam h
  have hkk : fieldKK op = kk := by simpa using congrArg fieldKK h
  rw [← hfam, ← hkk, wordXK_fields]

theorem eq_of_full_mask {w : Word} (h : op &&& 0xFFFF = w) : w = op := by
  rw [← h]
  exact BitVec.and_allOnes

end Masks

/-- A word that a row matches is the word of an instruction of that row: its operands are the fields of the word. -/
theorem exists_encode_of_matches : ∀ r ∈ opcodeTable, ∀ op : Word, op &&& r.mask = r.value →
    ∃ i : Instr, i.row = r ∧ encode i = op := by
  simp only [opcodeTable, opcodeTableLow, opcodeTableHigh, List.cons_append, List.nil_append, List.forall_mem_cons]
  exact ⟨
    fun _ h => ⟨.cls, rfl, eq_of_full_mask h⟩,
    fun _ h => ⟨.ret, rfl, eq_of_full_mask h⟩,
    fun op h => ⟨.jp (fieldNNN op), rfl, wordA_of_mask h⟩,
    fun op h => ⟨.call (fieldNNN op), rfl, wordA_of_mask h⟩,
    fun op h => ⟨.seImm (fieldX op) (fieldKK op), rfl, wordXK_of_mask_fam h⟩,
    fun op h => ⟨.sneImm (fieldX op) (fieldKK op), rfl, wordXK_of_mask_fam h⟩,
    fun op h => ⟨.seReg (fieldX op) (fieldY op), rfl, wordXYN_of_mask h⟩,
    fun op h => ⟨.ldImm (fieldX op) (fieldKK op), rfl, wordXK_of_mask_fam h⟩,
    fun op h => ⟨.addImm (fieldX op) (fieldKK op), rfl, wordXK_of_mask_fam h⟩,
    fun op h => ⟨.ldReg (fieldX op) (fieldY op), rfl, wordXYN_of_mask h⟩,
    fun op h => ⟨.orReg (fieldX op) (fieldY op), rfl, wordXYN_of_mask h⟩,
    fun op h => ⟨.andReg (fieldX op) (fieldY op), rfl, wordXYN_of_mask h⟩,
    fun op h => ⟨.xorReg (fieldX op) (fieldY op), rfl, wordXYN_of_mask h⟩,
    fun op h => ⟨.addReg (fieldX op) (fieldY op), rfl, wordXYN_of_mask h⟩,
    fun op h => ⟨.subReg (fieldX op) (fieldY op), rfl, wordXYN_of_mask h⟩,
    fun op h => ⟨.shr (fieldX op) (fieldY op), rfl, wordXYN_of_mask h⟩,
    fun op h => ⟨.subnReg (fieldX op) (fieldY op), rfl, wordXYN_of_mask h⟩,
    fun op h => ⟨.shl (fieldX op) (fieldY op), rfl, wordXYN_of_mask h⟩,
    fun op h => ⟨.sneReg (fieldX op) (fieldY op), rfl, wordXYN_of_mask h⟩,
    fun op h => ⟨.ldI (fieldNNN op), rfl, wordA_of_mask h⟩,
    fun op h => ⟨.jpV0 (fieldNNN op), rfl, wordA_of_mask h⟩,
    fun op h => ⟨.rnd (fieldX op) (fieldKK op), rfl, wordXK_of_mask_fam h⟩,
    fun op h => ⟨.drw (fieldX op) (fieldY op) (fieldN op), rfl, wordXYN_of_mask_fam h⟩,
    fun op h => ⟨.skp (fieldX op), rfl, wordXK_of_mask h⟩,
    fun op h => ⟨.sknp (fieldX op), rfl, wordXK_of_mask h⟩,
    fun op h => ⟨.ldVxDT (fieldX op), rfl, wordXK_of_mask h⟩,
    fun op h => ⟨.ldVxK (fieldX op), rfl, wordXK_of_mask h⟩,
    fun op h => ⟨.ldDTVx (fieldX op), rfl, wordXK_of_mask h⟩,
    fun op h => ⟨.ldSTVx (fieldX op), rfl, wordXK_of_mask h⟩,
    fun op h => ⟨.addIVx (fieldX op), rfl, wordXK_of_mask h⟩,
    fun op h => ⟨.ldFVx (fieldX op), rfl, wordXK_of_mask h⟩,
    fun op h => ⟨.ldBVx (fieldX op), rfl, wordXK_of_mask h⟩,
    fun op h => ⟨.ldMemVx (fieldX op), rfl, wordXK_of_mask h⟩,
    fun op h => ⟨.ldVxMem (fieldX op), rfl, wordXK_of_mask h⟩,
    List.forall_mem_nil _⟩

/-- The decoder reads an instruction of the row from every word that a row matches (R64). -/
theorem decodeWord_of_matches {op : Word} {r : OpcodeRow} (hr : r ∈ opcodeTable) (h : op &&& r.mask = r.value) :
    ∃ i, decodeWord op = .ok i ∧ i.row = r := by
  obtain ⟨i, hrow, rfl⟩ := exists_encode_of_matches r hr op h
  exact ⟨i, decodeWord_encode i, hrow⟩

/-- Settles O3: the decoder is sound for the rows and complete for them, and it reads one instruction from a word,
so two rows that match the word are the row of that instruction. -/
theorem decoderFollowsOpcodeMap : Obligations.DecoderFollowsOpcodeMap := by
  refine ⟨fun op i h => ⟨row_mem_opcodeTable i, row_matches_of_decodeWord h⟩,
    fun op r hr h => decodeWord_of_matches hr h, fun op r hr q hq h h' => ?_⟩
  obtain ⟨i, hi, rfl⟩ := decodeWord_of_matches hr h
  obtain ⟨j, hj, rfl⟩ := decodeWord_of_matches hq h'
  cases hi.symm.trans hj
  rfl

/-! The unknown words of the families that have some (R67), by the number of the field that selects the operation. -/

section Unknown

variable (op : Word)

theorem fieldFam_toNat : (fieldFam op).toNat = op.toNat / 4096 := by
  have := word_toNat op
  omega

theorem fieldN_val : (fieldN op).val = op.toNat % 16 := by
  have := word_toNat op
  omega

theorem fieldKK_toNat_mod : (fieldKK op).toNat = op.toNat % 256 := by
  have := word_toNat op
  have := fieldKK_toNat op
  omega

theorem decodeFam0_unknown :
    decodeFam0 op = .error (.unknownOpcode op) ↔ op.toNat ≠ 0x00E0 ∧ op.toNat ≠ 0x00EE := by
  unfold decodeFam0
  split <;> simp_all

theorem decodeFam5_unknown : decodeFam5 op = .error (.unknownOpcode op) ↔ op.toNat % 16 ≠ 0 := by
  rw [← fieldN_val]
  unfold decodeFam5
  split <;> simp_all

theorem decodeFam8_unknown : decodeFam8 op = .error (.unknownOpcode op) ↔
    op.toNat % 16 ∈ [0x8, 0x9, 0xA, 0xB, 0xC, 0xD, 0xF] := by
  rw [← fieldN_val]
  have hlt := (fieldN op).isLt
  simp only [List.mem_cons, List.not_mem_nil, or_false]
  unfold decodeFam8
  split
  case h_10 => simp only [true_iff, imp_false] at *; omega
  all_goals simp_all

theorem decodeFam9_unknown : decodeFam9 op = .error (.unknownOpcode op) ↔ op.toNat % 16 ≠ 0 := by
  rw [← fieldN_val]
  unfold decodeFam9
  split <;> simp_all

theorem decodeFamE_unknown :
    decodeFamE op = .error (.unknownOpcode op) ↔ op.toNat % 256 ∉ [0x9E, 0xA1] := by
  rw [← fieldKK_toNat_mod]
  unfold decodeFamE
  split <;> simp_all

theorem decodeFamF_unknown : decodeFamF op = .error (.unknownOpcode op) ↔
    op.toNat % 256 ∉ [0x07, 0x0A, 0x15, 0x18, 0x1E, 0x29, 0x33, 0x55, 0x65] := by
  rw [← fieldKK_toNat_mod]
  unfold decodeFamF
  split <;> simp_all

end Unknown

/-- Settles O4: the family selects the line of R67's table; the families with no line decode every word. -/
theorem unknownOpcodesByFamily : Obligations.UnknownOpcodesByFamily := by
  intro op
  rw [← fieldFam_toNat]
  have hlt := (fieldFam op).isLt
  unfold decodeWord
  split
  case h_16 =>
    have hF : (fieldFam op).toNat = 0xF := by simp only [imp_false] at *; omega
    simpa [hF] using decodeFamF_unknown op
  all_goals
    next hfam =>
      simp [hfam, decodeFam0_unknown, decodeFam5_unknown, decodeFam8_unknown, decodeFam9_unknown, decodeFamE_unknown]

/-- Settles O5: each word evaluates to its instruction. -/
theorem sampleWordsDecode : Obligations.SampleWordsDecode :=
  ⟨rfl, rfl, rfl, rfl, rfl, rfl, rfl, rfl, rfl, rfl, rfl, rfl, rfl, rfl, rfl, rfl, rfl, rfl, rfl, rfl⟩

end Sys2Proof
end

section
/-! SUPPORT. The words of the other instructions as numbers (R61, R62), by format. -/

namespace Sys2Proof.Machine

section Formats

variable {i : Instr} {x y : Reg} (fam n : BitVec 4) (kk : Byte)

theorem isWordOf_of_encode {m : Nat} (h : (encode i).toNat = m) : IsWordOf m i :=
  isWordOf_of_toNat_encode (decodeWord_encode i) h

/-- Format XK, the fixed family and low byte first. -/
theorem isWordOf_of_wordXK (h : encode i = wordXK fam x kk) :
    IsWordOf (4096 * fam.toNat + kk.toNat + 256 * x.val) i :=
  isWordOf_of_encode (h ▸ wordXK_toNat_fixed_add fam x kk)

/-- Format XY, the fixed family and low nibble first. -/
theorem isWordOf_of_wordXYN (h : encode i = wordXYN fam x y n) :
    IsWordOf (4096 * fam.toNat + n.toNat + 256 * x.val + 16 * y.val) i :=
  isWordOf_of_encode (by rw [h, wordXYN_toNat]; omega)

end Formats

/-- The number of an unknown opcode is the word of no instruction. -/
theorem not_isWordOf_of_unknown {m : Nat} {e : DecodeError} (h : decodeWord (BitVec.ofNat 16 m) = .error e)
    (i : Instr) : ¬ IsWordOf m i := fun hi => by cases h.symm.trans hi

end Sys2Proof.Machine
end

section
/-! SUPPORT. The jump with offset (R93), the skips on two registers and on a key (R102, R103, R150, R151). -/

namespace Sys2Proof.Machine

/-- A 12-bit address and a byte do not fill 16 bits, so nothing is lost (R93). -/
theorem jumpTarget_toNat (s : State) (nnn : Addr12) :
    (jumpTarget s nnn).toNat = nnn.toNat + (s.getV 0).toNat := by
  have hn := nnn.isLt
  have hv := (s.getV 0).isLt
  rw [jumpTarget, BitVec.toNat_add, addrImm_toNat, BitVec.toNat_setWidth_of_le (by decide), Nat.mod_eq_of_lt (by omega)]

/-- Settles O33: the meaning of Bnnn is one write to `PC`. -/
theorem jumpOffsetAddsV0 : Obligations.JumpOffsetAddsV0 := fun s nnn =>
  ⟨isWordOf_of_encode (wordA_toNat 0xB nnn), _, rfl, jumpTarget_toNat s nnn, setPc_onlyChanges s _⟩

/-- The unknown words of families 5 and 9: a low nibble other than 0. -/
theorem decodeWord_unknown_of_fam5_or_fam9 {fam : Nat} (hfam : fam = 5 ∨ fam = 9) (x y : Reg) {n : Nat} (hn : n < 16)
    (hn0 : n ≠ 0) : ∃ e, decodeWord (BitVec.ofNat 16 (4096 * fam + 256 * x.val + 16 * y.val + n)) = .error e := by
  have hx := x.isLt
  have hy := y.isLt
  refine ⟨_, (unknownOpcodesByFamily _).mpr ?_⟩
  rw [BitVec.toNat_ofNat]
  omega

/-- Settles O38: the decoder rejects the words with a low nibble other than 0, and each meaning is one `skipIf`. -/
theorem registerSkips : Obligations.RegisterSkips := by
  intro s x y
  refine ⟨fun n hn hn0 => ?_, isWordOf_of_wordXYN 5 0 rfl, isWordOf_of_wordXYN 9 0 rfl,
    ⟨_, rfl, skipIf_beq_pc (s.getV x) (s.getV y) s, skipIf_onlyChanges _ s⟩,
    ⟨_, rfl, skipIf_bne_pc (s.getV x) (s.getV y) s, skipIf_onlyChanges _ s⟩⟩
  obtain ⟨_, h5⟩ := decodeWord_unknown_of_fam5_or_fam9 (.inl rfl) x y hn hn0
  obtain ⟨_, h9⟩ := decodeWord_unknown_of_fam5_or_fam9 (.inr rfl) x y hn hn0
  exact ⟨not_isWordOf_of_unknown h5, not_isWordOf_of_unknown h9⟩

theorem skipIf_not_pc (c : Bool) (s : State) : (skipIf (!c) s).pc = if c then s.pc else s.pc + 2 := by
  cases c <;> rfl

/-- Settles O39: each meaning is one `skipIf`, on the bit of `KEY` that the register names. -/
theorem keySkips : Obligations.KeySkips := fun s _ =>
  ⟨isWordOf_of_wordXK 0xE 0x9E rfl, isWordOf_of_wordXK 0xE 0xA1 rfl,
    ⟨_, rfl, skipIf_pc _ s, skipIf_onlyChanges _ s⟩, ⟨_, rfl, skipIf_not_pc _ s, skipIf_onlyChanges _ s⟩⟩

end Sys2Proof.Machine
end

section
/-! SUPPORT. Family 8 and the random byte (R113 to R122): a meaning that writes a result and then the flag, and the
results and flags as numbers. -/

namespace Sys2Proof.Machine

/-- Settles O41: each meaning is one `setV`, and the bitwise operations act bit by bit. -/
theorem assignAndLogic : Obligations.AssignAndLogic := by
  intro s x y
  refine ⟨isWordOf_of_wordXYN 8 0 rfl, isWordOf_of_wordXYN 8 1 rfl, isWordOf_of_wordXYN 8 2 rfl,
    isWordOf_of_wordXYN 8 3 rfl, ⟨_, rfl, setV_getV_self s x _, setV_onlyChanges s x _⟩,
    ⟨_, rfl, fun b _ => ?_, setV_onlyChanges s x _⟩, ⟨_, rfl, fun b _ => ?_, setV_onlyChanges s x _⟩,
    ⟨_, rfl, fun b _ => ?_, setV_onlyChanges s x _⟩⟩
  · rw [setV_getV_self, BitVec.getLsbD_or]
  · rw [setV_getV_self, BitVec.getLsbD_and]
  · rw [setV_getV_self, BitVec.getLsbD_xor]

/-- The value of VF for a condition. -/
theorem flagByte_decide_toNat (p : Prop) [Decidable p] : (flagByte (decide p)).toNat = if p then 1 else 0 := by
  by_cases h : p <;> simp [flagByte, h]

/-- The value of VF for a bit shifted out. -/
theorem flagByte_getLsbD_toNat (b : Byte) (k : Nat) : (flagByte (b.getLsbD k)).toNat = b.toNat / 2 ^ k % 2 := by
  rw [← BitVec.testBit_toNat, Nat.testBit_eq_decide_div_mod_eq, flagByte_decide_toNat]
  split <;> omega

/-- A meaning that writes a result and then the flag, told by their numbers (R12): with `x = 0xF` the flag remains. -/
theorem setResultFlag_answers (s : State) (x : Reg) {r : Byte} {f : Bool} {m n : Nat} (hr : r.toNat = m)
    (hf : (flagByte f).toNat = n) :
    ∃ t, (Host.Outcome.next (s.setResultFlag x r f) : Result) = .next t ∧ (x ≠ 0xF → (t.getV x).toNat = m) ∧
      (t.getV 0xF).toNat = n ∧ OnlyChanges (fun e => e = .v x ∨ e = .v 0xF) s t := by
  refine ⟨_, rfl, fun hx => ?_, ?_, setResultFlag_onlyChanges s x r f⟩
  · rw [setResultFlag_getV, if_neg hx, if_pos rfl, hr]
  · rw [setResultFlag_getV, if_pos rfl, hf]

/-- Settles O42: the sum modulo 256, and the carry as the flag. -/
theorem addSetsCarry : Obligations.AddSetsCarry := fun s x _ =>
  ⟨isWordOf_of_wordXYN 8 4 rfl, setResultFlag_answers s x (BitVec.toNat_add ..) (flagByte_decide_toNat _)⟩

theorem sub_toNat_mod (a b : Byte) : (a - b).toNat = (a.toNat + 256 - b.toNat) % 256 := by
  have := b.isLt
  rw [BitVec.toNat_sub]
  omega

/-- Settles O43: the difference modulo 256, and no borrow as the flag, with the operands in either order. -/
theorem subtractSetsNoBorrow : Obligations.SubtractSetsNoBorrow := fun s x _ =>
  ⟨isWordOf_of_wordXYN 8 5 rfl, isWordOf_of_wordXYN 8 7 rfl,
    setResultFlag_answers s x (sub_toNat_mod ..) (flagByte_decide_toNat _),
    setResultFlag_answers s x (sub_toNat_mod ..) (flagByte_decide_toNat _)⟩

theorem shiftRight_one_toNat (a : Byte) : (a >>> 1).toNat = a.toNat / 2 := by
  rw [BitVec.toNat_ushiftRight, Nat.shiftRight_eq_div_pow]

theorem shiftLeft_one_toNat (a : Byte) : (a <<< 1).toNat = 2 * a.toNat % 256 := by
  rw [BitVec.toNat_shiftLeft, Nat.shiftLeft_eq, Nat.mul_comm]

theorem shiftedOutRight_toNat (a : Byte) : (flagByte (shiftedOutRight a)).toNat = a.toNat % 2 := by
  rw [shiftedOutRight, flagByte_getLsbD_toNat, pow_zero, Nat.div_one]

theorem shiftedOutLeft_toNat (a : Byte) : (flagByte (shiftedOutLeft a)).toNat = a.toNat / 128 := by
  have := a.isLt
  rw [shiftedOutLeft, flagByte_getLsbD_toNat]
  omega

/-- Settles O44: half or twice the register, and the bit shifted out as the flag. -/
theorem shiftsSetShiftedOutBit : Obligations.ShiftsSetShiftedOutBit := fun s x _ =>
  ⟨isWordOf_of_wordXYN 8 6 rfl, isWordOf_of_wordXYN 8 0xE rfl,
    setResultFlag_answers s x (shiftRight_one_toNat _) (shiftedOutRight_toNat _),
    setResultFlag_answers s x (shiftLeft_one_toNat _) (shiftedOutLeft_toNat _)⟩

theorem consumeRnd_onlyChanges (s : State) : OnlyChanges (· = .rnd) s (consumeRnd s) := fun e he => by
  cases e with
  | rnd => exact absurd rfl he
  | _ => rfl

/-- Cxkk is a draw and a write to `V[x]`, so its frame is theirs in sequence. -/
theorem execRnd_onlyChanges (s : State) (x : Reg) (b : Byte) :
    OnlyChanges (fun e => e = .v x ∨ e = .rnd) s ((consumeRnd s).setV x b) :=
  ((consumeRnd_onlyChanges s).mono fun _ h => .inr h).trans
    ((setV_onlyChanges (consumeRnd s) x b).mono fun _ h => .inl h)

/-- Settles O45: the byte drawn is the host's next one or the free value, and the mask clears the bits that are 0 in the
immediate. -/
theorem randomByteIsMasked : Obligations.RandomByteIsMasked := by
  intro s x kk
  refine ⟨isWordOf_of_encode (wordXK_toNat_eq 0xC x kk), _, rfl, rfl, rfl, fun b rest h => ?_, fun h => ?_,
    fun j hj => ?_, execRnd_onlyChanges s x _⟩
  · rw [setV_getV_self, nextRnd, h]
  · rw [setV_getV_self, nextRnd, h]
  · rw [setV_getV_self, BitVec.getLsbD_and, hj, Bool.and_false]

end Sys2Proof.Machine
end

section
/-! SUPPORT. The addition to `I` (R131) and the timers (R152, R154, R155). -/

namespace Sys2Proof.Machine

/-- Fx1E is a write to `I` and a write to VF, so its frame is theirs in sequence. -/
theorem setIndex_setFlag_onlyChanges (s : State) (w : Word) (f : Bool) :
    OnlyChanges (fun e => e = .index ∨ e = .v flagReg) s ((s.setIndex w).setFlag f) :=
  ((setIndex_onlyChanges s w).mono fun _ h => .inl h).trans
    ((setV_onlyChanges (s.setIndex w) flagReg (flagByte f)).mono fun _ h => .inr h)

/-- Settles O47: the sum modulo 65536, and the test of the stored value as the flag. -/
theorem addToIndexFlagsOverflow : Obligations.AddToIndexFlagsOverflow := by
  intro s x
  refine ⟨isWordOf_of_wordXK 0xF 0x1E rfl, _, rfl, ?_, ?_, setIndex_setFlag_onlyChanges s _ _⟩
  · refine (BitVec.toNat_add ..).trans ?_
    rw [BitVec.toNat_setWidth_of_le (by decide)]
  · rw [setFlag_getV, if_pos rfl]
    exact flagByte_decide_toNat _

/-- Settles O58: the meaning of Fx07 is one write to `V[x]`. -/
theorem delayTimerIsRead : Obligations.DelayTimerIsRead := fun s x =>
  ⟨isWordOf_of_wordXK 0xF 0x07 rfl, _, rfl, setV_getV_self s x s.dt, setV_onlyChanges s x s.dt⟩

/-- Settles O59: each meaning is one write to its timer. -/
theorem timersAreWritten : Obligations.TimersAreWritten := fun s _ =>
  ⟨isWordOf_of_wordXK 0xF 0x15 rfl, isWordOf_of_wordXK 0xF 0x18 rfl,
    ⟨_, rfl, setDT_dt s _, setDT_onlyChanges s _⟩, ⟨_, rfl, setST_st s _, setST_onlyChanges s _⟩⟩

end Sys2Proof.Machine
end

section
/-! SUPPORT. The key wait: what Fx0A does with a key down and with none (R153), and the poll of a STEP in the wait
(R86). -/

namespace Sys2Proof.Machine

theorem setMode_onlyChanges (s : State) (m : Mode) : OnlyChanges (· = .mode) s (s.setMode m) := fun e he => by
  cases e <;> simp [Element.Same] at he ⊢

/-- A register given the number of a key holds it, since key numbers are below 256. -/
theorem setKeyNumber_getV_toNat (s : State) (x : Reg) (k : Fin 16) :
    ((s.setKeyNumber x k).getV x).toNat = k.val := by
  have := k.isLt
  rw [State.setKeyNumber, setV_getV_self, BitVec.toNat_ofNat, Nat.mod_eq_of_lt (by omega)]

section Keys

variable {s : State} {x : Reg} {k : Fin 16}

theorem exec_ldVxK_of_some (h : s.lowestKey = some k) : exec (.ldVxK x) s = .next (s.setKeyNumber x k) := by
  simp only [exec, execLdVxK, h]

theorem exec_ldVxK_of_none (h : s.lowestKey = none) : exec (.ldVxK x) s = .next (s.setMode (.waitingForKey x)) := by
  simp only [exec, execLdVxK, h]

/-- Everything that Fx0A can do. -/
theorem exec_ldVxK_cases {t : State} (h : exec (.ldVxK x) s = .next t) :
    (∃ k, s.lowestKey = some k ∧ t = s.setKeyNumber x k) ∨
    (s.lowestKey = none ∧ t = s.setMode (.waitingForKey x)) := by
  cases hkey : s.lowestKey with
  | some k => cases h.symm.trans (exec_ldVxK_of_some hkey); exact .inl ⟨k, rfl, rfl⟩
  | none => cases h.symm.trans (exec_ldVxK_of_none hkey); exact .inr ⟨rfl, rfl⟩

theorem keyPoll_of_some (h : s.lowestKey = some k) : keyPoll x s = (s.setKeyNumber x k).setMode .running := by
  simp only [keyPoll, h]

theorem keyPoll_of_none (h : s.lowestKey = none) : keyPoll x s = s := by
  simp only [keyPoll, h]

/-- A key poll reaches registers and `MODE` only. -/
theorem keyPoll_eq (x : Reg) (s : State) : ∃ v m, keyPoll x s = { s with v := v, mode := m } := by
  cases h : s.lowestKey with
  | some k => exact ⟨_, _, keyPoll_of_some h⟩
  | none => exact ⟨_, _, keyPoll_of_none h⟩

theorem step_of_waiting (h : s.mode = .waitingForKey x) : step s = .next (keyPoll x (beginEvent s)) := by
  simp only [step, h]

end Keys

/-- Settles O60: the lowest key is the one the model finds, and with none down only `MODE` is written. -/
theorem waitForKeyTakesTheLowest : Obligations.WaitForKeyTakesTheLowest := by
  intro s x
  refine ⟨isWordOf_of_wordXK 0xF 0x0A rfl, fun k hk hlow => ?_, fun hnone => ?_⟩
  · exact ⟨_, exec_ldVxK_of_some (lowestKey_some.mpr ⟨hk, hlow⟩), setKeyNumber_getV_toNat s x k, setV_onlyChanges s x _⟩
  · exact ⟨_, exec_ldVxK_of_none (lowestKey_none.mpr hnone), rfl, setMode_onlyChanges s _⟩

/-- A key poll writes the latched register, `MODE` and `ERR`. -/
theorem keyPoll_onlyChanges (x : Reg) (s : State) :
    OnlyChanges (fun e => e = .v x ∨ e = .mode ∨ e = .err) s (keyPoll x (beginEvent s)) := by
  have hbegin : OnlyChanges (fun e => e = .v x ∨ e = .mode ∨ e = .err) s (beginEvent s) :=
    (setErr_onlyChanges s .none).mono fun _ h => .inr (.inr h)
  cases h : (beginEvent s).lowestKey with
  | none => rwa [keyPoll_of_none h]
  | some k =>
    rw [keyPoll_of_some h]
    exact (hbegin.trans ((setV_onlyChanges _ x _).mono fun _ h => .inl h)).trans
      ((setMode_onlyChanges _ _).mono fun _ h => .inr (.inl h))

/-- Settles O9: the STEP of a key wait is the poll, which finds the lowest pressed key or none. -/
theorem keyWaitPollsTheKeypad : Obligations.KeyWaitPollsTheKeypad := by
  intro s x hmode
  rw [step_of_waiting hmode]
  refine ⟨fun k hk hlow => ?_, fun hnone => ?_⟩
  · have hkey : (beginEvent s).lowestKey = some k := lowestKey_some.mpr ⟨hk, hlow⟩
    refine ⟨_, rfl, ?_, ?_, ?_, keyPoll_onlyChanges x s⟩ <;> rw [keyPoll_of_some hkey]
    · exact setKeyNumber_getV_toNat (beginEvent s) x k
    · rfl
    · rfl
  · have hkey : (beginEvent s).lowestKey = none := lowestKey_none.mpr hnone
    rw [keyPoll_of_none hkey]
    rfl

end Sys2Proof.Machine
end

section
/-! SUPPORT. Accesses to consecutive addresses from `I` upward (R49, R50): all inside memory, or split at the first one
outside, whose address is the lowest above 0xFFF. -/

namespace Sys2Proof.Machine

section Consecutive

variable {α : Type} {addr : α → Nat} {a : Nat} {l : List α} (hl : l.map addr = List.range' a l.length)
include hl

theorem consecutive_inside (hin : a + l.length ≤ 0x1000) : ∀ d ∈ l, addr d ≤ 0xFFF := fun d hd => by
  have hmem := List.mem_map_of_mem (f := addr) hd
  rw [hl, List.mem_range'_1] at hmem
  omega

theorem consecutive_nodup : (l.map addr).Nodup := hl ▸ List.nodup_range'

/-- The accesses inside memory come first, and the one after them is at the lowest address above 0xFFF. -/
theorem consecutive_split (hpos : 0 < l.length) (hout : 0x1000 < a + l.length) :
    ∃ c rest, l = l.filter (fun d => decide (addr d ≤ 0xFFF)) ++ c :: rest ∧ addr c = max a 0x1000 := by
  induction l generalizing a with
  | nil => cases hpos
  | cons d l ih =>
    have hl' := hl
    rw [List.map_cons, List.length_cons, List.range'_succ, List.cons.injEq] at hl'
    obtain ⟨hd, htail⟩ := hl'
    rw [List.length_cons] at hout
    by_cases ha : a ≤ 0xFFF
    · obtain ⟨c, rest, hsplit, hc⟩ := ih htail (by omega) (by omega)
      refine ⟨c, rest, ?_, by omega⟩
      rw [List.filter_cons_of_pos (by simp only [hd, ha, decide_true]), List.cons_append, ← hsplit]
    · have hnone : (d :: l).filter (fun d => decide (addr d ≤ 0xFFF)) = [] := by
        refine List.filter_eq_nil_iff.mpr fun e he => ?_
        have hmem := List.mem_map_of_mem (f := addr) he
        rw [hl, List.mem_range'_1] at hmem
        simp only [decide_eq_true_eq]
        omega
      exact ⟨d, l, by rw [hnone, List.nil_append], by omega⟩

end Consecutive

theorem filter_inside {α : Type} (addr : α → Nat) (l : List α) :
    ∀ d ∈ l.filter (fun d => decide (addr d ≤ 0xFFF)), addr d ≤ 0xFFF := fun _ hd =>
  of_decide_eq_true (List.mem_filter.mp hd).2

/-! The three instructions' addresses are consecutive. -/

theorem bcdCells_consecutive (s : State) (x : Reg) :
    (s.bcdCells x).map Prod.fst = List.range' s.index.toNat (s.bcdCells x).length := by
  simp [State.bcdCells, State.addrAt, List.range']

@[simp] theorem regsUpTo_length (x : Reg) : (regsUpTo x).length = x.val + 1 := by revert x; decide

theorem regsUpTo_map_val (x : Reg) : (regsUpTo x).map Fin.val = List.range (x.val + 1) := by revert x; decide

theorem regsUpTo_consecutive (s : State) (x : Reg) :
    (regsUpTo x).map (fun r => s.addrAt r.val) = List.range' s.index.toNat (regsUpTo x).length := by
  rw [regsUpTo_length, List.range'_eq_map_range, ← regsUpTo_map_val, List.map_map]
  rfl

@[simp] theorem regCells_length (s : State) (x : Reg) : (s.regCells x).length = x.val + 1 := by
  rw [State.regCells, List.length_map, regsUpTo_length]

theorem regCells_consecutive (s : State) (x : Reg) :
    (s.regCells x).map Prod.fst = List.range' s.index.toNat (s.regCells x).length := by
  rw [regCells_length, ← regsUpTo_length, ← regsUpTo_consecutive, State.regCells, List.map_map]
  rfl

theorem mem_regCells (s : State) {r x : Reg} (h : r ≤ x) : (s.addrAt r.val, s.getV r) ∈ s.regCells x :=
  List.mem_map_of_mem ((mem_regsUpTo x r).mpr h)

/-! Stores. -/

section Stores

variable {cells : List Host.Cell} {a : Nat} (hl : cells.map Prod.fst = List.range' a cells.length)
include hl

/-- Stores that run past the end of memory: those inside, then the error (R50). -/
theorem storeCells_pastEnd (hpos : 0 < cells.length) (hout : 0x1000 < a + cells.length) (s : State) :
    storeCells cells s = (storeCells (cells.filter (fun c => decide (c.1 ≤ 0xFFF))) s).setErr
      (.outOfBoundsAccess (max a 0x1000)) := by
  obtain ⟨⟨ca, cb⟩, rest, hsplit, hc⟩ := consecutive_split hl hpos hout
  subst hc
  conv_lhs => rw [hsplit]
  rw [storeCells_append (filter_inside Prod.fst cells), storeCells_fail (by omega)]

/-- What stores past the end leave: each byte inside memory is read back, the error has the lowest address outside, and
nothing else changes. -/
theorem storeCells_pastEnd_effects (hpos : 0 < cells.length) (hout : 0x1000 < a + cells.length) {s : State}
    (hm : s.mem.wf = true) :
    (storeCells cells s).err = .outOfBoundsAccess (max a 0x1000) ∧
    (∀ c ∈ cells, c.1 ≤ 0xFFF → memRead (storeCells cells s) c.1 = some c.2) ∧
    OnlyChanges (fun e => e = .err ∨ ∃ c ∈ cells, c.1 ≤ 0xFFF ∧ e = .byte c.1) s (storeCells cells s) := by
  have hin := filter_inside Prod.fst cells
  have hnodup := (List.filter_sublist (p := fun c => decide (c.1 ≤ 0xFFF))).map Prod.fst |>.nodup (consecutive_nodup hl)
  rw [storeCells_pastEnd hl hpos hout]
  refine ⟨rfl, fun c hc hca => ?_, ?_⟩
  · exact memRead_storeCells_inBounds hin hnodup hm (List.mem_filter.mpr ⟨hc, decide_eq_true hca⟩)
  · refine ((storeCells_inBounds_onlyChanges hin s).mono ?_).trans ((setErr_onlyChanges _ _).mono fun _ h => .inl h)
    rintro _ ⟨c, hc, rfl⟩
    exact .inr ⟨c, (List.mem_filter.mp hc).1, hin c hc, rfl⟩

end Stores

/-- The decimal digits of a byte make up its number (R133). -/
theorem digits_toNat (b : Byte) : 100 * (hundreds b).toNat + 10 * (tens b).toNat + (ones b).toNat = b.toNat ∧
    (tens b).toNat ≤ 9 ∧ (ones b).toNat ≤ 9 := by
  have := b.isLt
  simp only [hundreds, tens, ones, BitVec.toNat_ofNat]
  omega

theorem mem_bcdCells (s : State) (x : Reg) : (s.addrAt 0, hundreds (s.getV x)) ∈ s.bcdCells x ∧
    (s.addrAt 1, tens (s.getV x)) ∈ s.bcdCells x ∧ (s.addrAt 2, ones (s.getV x)) ∈ s.bcdCells x := by
  simp [State.bcdCells]

/-- Settles O48: three stores to consecutive addresses inside memory, of the digits. -/
theorem decimalDigitsAreStored : Obligations.DecimalDigitsAreStored := by
  intro s x hm hin
  have hl := bcdCells_consecutive s x
  have hbounds := consecutive_inside hl (show s.index.toNat + 3 ≤ 0x1000 by omega)
  have hread := fun {c} => memRead_storeCells_inBounds (c := c) hbounds (consecutive_nodup hl) hm
  obtain ⟨hmem0, hmem1, hmem2⟩ := mem_bcdCells s x
  obtain ⟨hsum, htens, hones⟩ := digits_toNat (s.getV x)
  exact ⟨isWordOf_of_wordXK 0xF 0x33 rfl, _, _, _, _, rfl, hread hmem0, hread hmem1, hread hmem2, hsum, htens,
    hones, storeCells_inBounds_onlyChanges hbounds s⟩

/-- Fx55 inside memory stores every register up to `x` (R134). -/
theorem memRead_storeCells_regCells {s : State} {x : Reg} (hm : s.mem.wf = true) (hin : s.index.toNat + x.val ≤ 0xFFF)
    {r : Reg} (hr : r ≤ x) : memRead (storeCells (s.regCells x) s) (s.addrAt r.val) = some (s.getV r) :=
  have hl := regCells_consecutive s x
  memRead_storeCells_inBounds (consecutive_inside hl (by rw [regCells_length]; omega)) (consecutive_nodup hl) hm
    (mem_regCells s hr)

/-- Settles O49: stores to consecutive addresses inside memory, of the registers. -/
theorem registersAreStored : Obligations.RegistersAreStored := by
  intro s x hm hin
  have hbounds := consecutive_inside (regCells_consecutive s x) (by rw [regCells_length]; omega)
  exact ⟨isWordOf_of_wordXK 0xF 0x55 rfl, _, rfl, fun r hr => memRead_storeCells_regCells hm hin hr,
    storeCells_inBounds_onlyChanges hbounds s⟩

/-- Settles O50: both instructions are stores to consecutive addresses that run past the end. -/
theorem storesStopAtTheEndOfMemory : Obligations.StoresStopAtTheEndOfMemory := by
  intro s x hm
  refine ⟨fun hout => ?_, fun hout => ?_⟩
  · obtain ⟨herr, hread, honly⟩ := storeCells_pastEnd_effects (bcdCells_consecutive s x) (show 0 < 3 by decide)
      (show 0x1000 < s.index.toNat + 3 by omega) hm
    obtain ⟨hmem0, hmem1, -⟩ := mem_bcdCells s x
    exact ⟨_, rfl, herr, hread _ hmem0, hread _ hmem1, honly⟩
  · obtain ⟨herr, hread, honly⟩ := storeCells_pastEnd_effects (regCells_consecutive s x)
      (by rw [regCells_length]; omega) (by rw [regCells_length]; omega) hm
    exact ⟨_, rfl, herr, fun r hr => hread _ (mem_regCells s hr), honly⟩

/-! Loads. -/

/-- Loads change the registers of the list, and `ERR`. -/
theorem loadRegs_onlyChanges (regs : List Reg) (s : State) :
    OnlyChanges (fun e => e = .err ∨ ∃ r ∈ regs, e = .v r) s (loadRegs regs s) := by
  obtain ⟨v, err, hload, hother, -⟩ := loadRegs_cases regs s
  rw [hload]
  intro e he
  obtain ⟨herr, hv⟩ := not_or.mp he
  cases e with
  | v r => exact hother r fun hr => hv ⟨r, hr, rfl⟩
  | err => exact absurd rfl herr
  | rnd => exact ⟨rfl, rfl⟩
  | _ => rfl

/-- Loads inside memory leave `ERR`. -/
theorem loadRegs_inBounds_onlyChanges {regs : List Reg} {s : State} (h : ∀ r ∈ regs, s.addrAt r.val ≤ 0xFFF) :
    OnlyChanges (fun e => ∃ r ∈ regs, e = .v r) s (loadRegs regs s) := by
  intro e he
  by_cases herr : e = .err
  · rw [herr]
    exact loadRegs_inBounds_err h
  · exact loadRegs_onlyChanges regs s e (not_or.mpr ⟨herr, he⟩)

theorem loadRegs_addrAt (regs : List Reg) (s : State) (off : Nat) : (loadRegs regs s).addrAt off = s.addrAt off := by
  obtain ⟨v, e, hload, -⟩ := loadRegs_cases regs s
  rw [hload]
  rfl

/-- The registers that a load inside memory reaches hold their bytes, as a read tells them. -/
theorem memRead_loadRegs_inBounds {regs : List Reg} {s : State} (h : ∀ r ∈ regs, s.addrAt r.val ≤ 0xFFF)
    (hd : regs.Nodup) {r : Reg} (hr : r ∈ regs) : some ((loadRegs regs s).getV r) = memRead s (s.addrAt r.val) := by
  rw [loadRegs_inBounds h hd, if_pos hr, memRead_eq, if_pos (h r hr)]

/-- Loads that run past the end of memory: those inside, then the error (R50). -/
theorem loadRegs_pastEnd {s : State} {regs : List Reg} {a : Nat}
    (hl : regs.map (fun r => s.addrAt r.val) = List.range' a regs.length) (hpos : 0 < regs.length)
    (hout : 0x1000 < a + regs.length) :
    loadRegs regs s = (loadRegs (regs.filter (fun r => decide (s.addrAt r.val ≤ 0xFFF))) s).setErr
      (.outOfBoundsAccess (max a 0x1000)) := by
  obtain ⟨c, rest, hsplit, hc⟩ := consecutive_split hl hpos hout
  have hin := filter_inside (fun r : Reg => s.addrAt r.val) regs
  conv_lhs => rw [hsplit]
  rw [loadRegs_append hin, loadRegs_fail (by rw [loadRegs_addrAt]; omega), loadRegs_addrAt, hc]

theorem regsUpTo_inside {s : State} {x : Reg} (hin : s.index.toNat + x.val ≤ 0xFFF) :
    ∀ r ∈ regsUpTo x, s.addrAt r.val ≤ 0xFFF :=
  consecutive_inside (regsUpTo_consecutive s x) (by rw [regsUpTo_length]; omega)

/-- Settles O51: loads from consecutive addresses inside memory. -/
theorem registersAreLoaded : Obligations.RegistersAreLoaded := by
  intro s x hin
  have hbounds := regsUpTo_inside hin
  refine ⟨isWordOf_of_wordXK 0xF 0x65 rfl, _, rfl, fun r hr => ?_, (loadRegs_inBounds_onlyChanges hbounds).mono ?_⟩
  · exact memRead_loadRegs_inBounds hbounds (nodup_regsUpTo x) ((mem_regsUpTo x r).mpr hr)
  · rintro e ⟨r, hr, rfl⟩
    exact ⟨r, (mem_regsUpTo x r).mp hr, rfl⟩

/-- Settles O52: loads from consecutive addresses that run past the end. -/
theorem loadsStopAtTheEndOfMemory : Obligations.LoadsStopAtTheEndOfMemory := by
  intro s x hout
  have hin := filter_inside (fun r : Reg => s.addrAt r.val) (regsUpTo x)
  have hload := loadRegs_pastEnd (regsUpTo_consecutive s x) (by rw [regsUpTo_length]; omega)
    (by rw [regsUpTo_length]; omega)
  refine ⟨_, congrArg Host.Outcome.next hload, rfl, fun r hr hra => ?_, ?_⟩
  · exact memRead_loadRegs_inBounds hin ((nodup_regsUpTo x).filter _)
      (List.mem_filter.mpr ⟨(mem_regsUpTo x r).mpr hr, decide_eq_true hra⟩)
  · refine ((loadRegs_inBounds_onlyChanges hin).mono ?_).trans ((setErr_onlyChanges _ _).mono fun _ h => .inl h)
    rintro e ⟨r, hr, rfl⟩
    exact .inr ⟨r, (mem_regsUpTo x r).mp (List.mem_filter.mp hr).1, hin r hr, rfl⟩

/-- Settles O53: the loads read the bytes that the stores left. -/
theorem storeLoadRoundTrip : Obligations.StoreLoadRoundTrip := by
  rintro s _ u x hm hin ⟨rfl⟩ hmem hindex
  have haddr : ∀ off, u.addrAt off = s.addrAt off := fun off => by rw [State.addrAt, State.addrAt, hindex]
  have hbounds := regsUpTo_inside (hindex.symm ▸ hin : u.index.toNat + x.val ≤ 0xFFF)
  refine ⟨_, rfl, fun r => ?_⟩
  rw [loadRegs_inBounds hbounds (nodup_regsUpTo x)]
  simp only [mem_regsUpTo]
  split
  next hr =>
    have hread := memRead_storeCells_regCells hm hin hr
    have hle := hbounds r ((mem_regsUpTo x r).mpr hr)
    rw [haddr] at hle
    rw [memRead_eq, if_pos hle, Option.some.injEq] at hread
    rw [haddr, hmem, hread]
  next => rfl

end Sys2Proof.Machine
end

section
/-! SUPPORT. The return (R90) and nested calls (example S4): the valid entries of the stack as a list, which a call
lengthens by `PC` and a return shortens by the value it gives back. -/

namespace Sys2Proof.Machine

section Pop

variable {s : State}

/-- A pop above 0 entries: `PC` takes the highest one, `SP` counts, and nothing else changes. -/
theorem popPc_takes {k : Fin 16} (hk : k.val + 1 = s.sp.val) :
    ∃ t, popPc s = some t ∧ t.pc = s.stack[k.val] ∧ t.sp.val = k.val ∧
      OnlyChanges (fun e => e = .sp ∨ e = .pc) s t := by
  obtain ⟨hempty, _⟩ | ⟨_, hlt, hpop⟩ := popPc_cases s
  · omega
  · have hidx : s.sp.val - 1 = k.val := by omega
    refine ⟨_, hpop, by simp only [hidx], hidx, fun e he => ?_⟩
    obtain ⟨hsp, hpc⟩ := not_or.mp he
    cases e with
    | sp => exact absurd rfl hsp
    | pc => exact absurd rfl hpc
    | rnd => exact ⟨rfl, rfl⟩
    | _ => rfl

theorem popPc_empty (h : s.sp.val = 0) : popPc s = none := by
  obtain ⟨_, hnone⟩ | ⟨hne, _⟩ := popPc_cases s
  · exact hnone
  · exact absurd h hne

theorem exec_ret_of_some {t : State} (h : popPc s = some t) : exec .ret s = .next t := by
  simp only [exec, execRet, h]

theorem exec_ret_of_empty (h : s.sp.val = 0) : exec .ret s = .next { s with err := .stackUnderflow } := by
  simp only [exec, execRet, popPc_empty h]
  rfl

end Pop

/-- Settles O35: the meaning of 00EE is a pop, or the error when there is none. -/
theorem returnPopsPc : Obligations.ReturnPopsPc := by
  refine ⟨isWordOf_of_toNat_encode Laws.RoundTrip.ret rfl, fun s => ⟨fun k hk => ?_, exec_ret_of_empty⟩⟩
  obtain ⟨t, hpop, hpc, hsp, honly⟩ := popPc_takes hk
  exact ⟨t, exec_ret_of_some hpop, hpc, hsp, honly⟩

/-- The valid entries of the stack, the oldest first (R15). -/
def validEntries (s : State) : List Word := s.stack.toList.take s.sp.val

@[simp] theorem validEntries_length (s : State) : (validEntries s).length = s.sp.val := by
  have := s.sp.isLt
  rw [validEntries, List.length_take, Vector.length_toList]
  omega

theorem exec_call_of_some {s t : State} (h : pushPc s = some t) (nnn : Addr12) :
    exec (.call nnn) s = .next (t.setPc (addrImm nnn)) := by
  simp only [exec, execCall, h]

/-- Everything that 2nnn can do: the push and the jump, or the error. -/
theorem exec_call_cases {nnn : Addr12} {s t : State} (h : exec (.call nnn) s = .next t) :
    (∃ hlt : s.sp.val < 16, t =
      { s with
        stack := s.stack.set s.sp.val s.pc hlt
        sp := ⟨s.sp.val + 1, Nat.succ_lt_succ hlt⟩
        pc := addrImm nnn }) ∨
    (s.sp.val = 16 ∧ t = { s with err := .stackOverflow }) := by
  obtain ⟨hlt, hpush⟩ | ⟨hfull, _⟩ := pushPc_cases s
  · cases h.symm.trans (exec_call_of_some hpush nnn)
    exact .inl ⟨hlt, rfl⟩
  · cases h.symm.trans (exec_call_of_full hfull nnn)
    exact .inr ⟨hfull, rfl⟩

/-- Everything that 00EE can do: the error, or the pop. -/
theorem exec_ret_cases {s t : State} (h : exec .ret s = .next t) :
    (s.sp.val = 0 ∧ t = { s with err := .stackUnderflow }) ∨
    (s.sp.val ≠ 0 ∧ ∃ hlt : s.sp.val - 1 < 16, t =
      { s with pc := s.stack[s.sp.val - 1], sp := ⟨s.sp.val - 1, Nat.lt_succ_of_lt hlt⟩ }) := by
  obtain ⟨hempty, _⟩ | ⟨hne, hlt, hpop⟩ := popPc_cases s
  · cases h.symm.trans (exec_ret_of_empty hempty)
    exact .inl ⟨hempty, rfl⟩
  · cases h.symm.trans (exec_ret_of_some hpop)
    exact .inr ⟨hne, hlt, rfl⟩

/-- A call with room adds `PC` to the valid entries. -/
theorem exec_call_validEntries {s : State} (h : s.sp.val < 16) (nnn : Addr12) :
    ∃ t, exec (.call nnn) s = .next t ∧ validEntries t = validEntries s ++ [s.pc] := by
  obtain ⟨hlt, hpush⟩ | ⟨hfull, _⟩ := pushPc_cases s
  · refine ⟨_, exec_call_of_some hpush nnn, ?_⟩
    have hlen : s.sp.val < (s.stack.toList.set s.sp.val s.pc).length := by simpa using hlt
    simp only [validEntries, setPc_stack, setPc_sp, Vector.toList_set]
    rw [List.take_succ_eq_append_getElem hlen, List.take_set_of_le (Nat.le_refl _), List.getElem_set_self]
  · omega

/-- A return takes the last valid entry off and gives it to `PC`. -/
theorem exec_ret_validEntries {s : State} {l : List Word} {w : Word} (h : validEntries s = l ++ [w]) :
    ∃ t, exec .ret s = .next t ∧ t.pc = w ∧ validEntries t = l := by
  have hlen := congrArg List.length h
  rw [validEntries_length, List.length_append, List.length_singleton] at hlen
  obtain ⟨hempty, _⟩ | ⟨_, hlt, hpop⟩ := popPc_cases s
  · omega
  · have hlt' : s.sp.val - 1 < s.stack.toList.length := by simpa using hlt
    have hsplit : validEntries s = s.stack.toList.take (s.sp.val - 1) ++ [s.stack[s.sp.val - 1]] := by
      rw [← Vector.getElem_toList hlt', ← List.take_succ_eq_append_getElem hlt', validEntries]
      congr 1
      omega
    obtain ⟨hl, hw⟩ := List.append_inj' (hsplit.symm.trans h) rfl
    exact ⟨_, exec_ret_of_some hpop, List.singleton_inj.mp hw, hl⟩

/-- Calls that fit the stack all complete, and add their `PC` values in order. -/
theorem callAll_validEntries (calls : List (Word × Addr12)) {s : State} (h : s.sp.val + calls.length ≤ 16) :
    ∃ t, callAll calls s = .next t ∧ validEntries t = validEntries s ++ calls.map Prod.fst := by
  induction calls generalizing s with
  | nil => exact ⟨s, rfl, (List.append_nil _).symm⟩
  | cons c calls ih =>
    obtain ⟨pc, nnn⟩ := c
    rw [List.length_cons] at h
    obtain ⟨t, hcall, ht⟩ := exec_call_validEntries (s := s.setPc pc) (by rw [setPc_sp]; omega) nnn
    have hsp := congrArg List.length ht
    rw [List.length_append, validEntries_length, validEntries_length, setPc_sp, List.length_singleton] at hsp
    obtain ⟨u, hall, hu⟩ := ih (s := t) (by omega)
    refine ⟨u, by simp only [callAll, hcall, hall], ?_⟩
    rw [hu, ht, List.map_cons, List.append_assoc]
    rfl

/-- Returns give back the last valid entries, the newest first. -/
theorem returnPcs_validEntries (ws l : List Word) {s : State} (h : validEntries s = l ++ ws.reverse) :
    returnPcs ws.length s = ws := by
  induction ws generalizing s with
  | nil => rfl
  | cons w ws ih =>
    rw [List.reverse_cons, ← List.append_assoc] at h
    obtain ⟨t, hret, hpc, ht⟩ := exec_ret_validEntries h
    simp only [List.length_cons, returnPcs, hret, hpc, ih ht]

/-- Settles O36: the calls add their `PC` values to the valid entries, and the returns take them off. -/
theorem callsReturnLastInFirstOut : Obligations.CallsReturnLastInFirstOut := by
  intro calls s h
  obtain ⟨t, hall, ht⟩ := callAll_validEntries calls h
  have hsp := congrArg List.length ht
  rw [List.length_append, validEntries_length, validEntries_length, List.length_map] at hsp
  have hret := returnPcs_validEntries (calls.map Prod.fst).reverse (validEntries s)
    (by rw [List.reverse_reverse, ht])
  rw [List.length_reverse, List.length_map] at hret
  exact ⟨t, hall, hsp, hret⟩

end Sys2Proof.Machine
end

section
/-! SUPPORT. Dxyn (R141): the pixels that a draw reaches in any state, and from them the draw inside memory, the
draw past the end and the second of two draws. -/

namespace Sys2Proof.Machine

/-- The pixels that Dxyn draws in state `s`: those of the rows before the first one outside memory. -/
def drawnPixels (x y : Reg) (n : Fin 16) (s : State) : List (Fin 64 × Fin 32) :=
  spritePixels s ((s.getV x).toNat % 64) ((s.getV y).toNat % 32) (rowsInside s (List.range n.val))

theorem drawnPixels_nodup (x y : Reg) (n : Fin 16) (s : State) : (drawnPixels x y n s).Nodup :=
  spritePixels_inside_nodup s _ _ (Nat.lt_trans n.isLt (by decide))

/-- Everything that Dxyn can do: VF is reset, the pixels are drawn, and `ERR` may be set. -/
theorem exec_drw_eq (x y : Reg) (n : Fin 16) (s : State) :
    ∃ e, exec (.drw x y n) s = .next ((drawPixels (drawnPixels x y n s) (s.setFlag false)).setErr e) := by
  obtain ⟨e, h, _⟩ := drawRows_eq ((s.getV x).toNat % 64) ((s.getV y).toNat % 32) (List.range n.val) (s.setFlag false)
  exact ⟨e, congrArg Host.Outcome.next h⟩

/-- Pixels change VF and cells. -/
theorem drawPixels_onlyChanges (ps : List (Fin 64 × Fin 32)) (s : State) :
    OnlyChanges (fun e => e = .v flagReg ∨ ∃ px py, e = .cell px py) s (drawPixels ps s) := by
  intro e he
  obtain ⟨hflag, hcell⟩ := not_or.mp he
  obtain ⟨f, v, hdraw⟩ := drawPixels_cases ps s
  cases e with
  | v r => exact drawPixels_getV_other ps s fun hr => hflag (congrArg _ hr)
  | cell px py => exact absurd ⟨px, py, rfl⟩ hcell
  | rnd => rw [hdraw]; exact ⟨rfl, rfl⟩
  | _ => rw [hdraw]; rfl

/-- A draw after the reset of VF. -/
theorem drawPixels_setFlag_onlyChanges (ps : List (Fin 64 × Fin 32)) (s : State) (f : Bool) :
    OnlyChanges (fun e => e = .v flagReg ∨ ∃ px py, e = .cell px py) s (drawPixels ps (s.setFlag f)) :=
  ((setV_onlyChanges s flagReg (flagByte f)).mono fun _ h => .inl h).trans (drawPixels_onlyChanges ps (s.setFlag f))

/-- Dxyn changes VF, cells and `ERR`. -/
theorem exec_drw_onlyChanges {x y : Reg} {n : Fin 16} {s t : State} (h : exec (.drw x y n) s = .next t) :
    OnlyChanges (fun e => (e = .v flagReg ∨ ∃ px py, e = .cell px py) ∨ e = .err) s t := by
  obtain ⟨e, hdraw⟩ := exec_drw_eq x y n s
  cases h.symm.trans hdraw
  exact ((drawPixels_setFlag_onlyChanges _ s false).mono fun _ h => .inl h).trans
    ((setErr_onlyChanges _ e).mono fun _ h => .inr h)

theorem exec_drw_mem {x y : Reg} {n : Fin 16} {s t : State} (h : exec (.drw x y n) s = .next t) : t.mem = s.mem := by
  obtain ⟨e, hdraw⟩ := exec_drw_eq x y n s
  obtain ⟨f, v, hps⟩ := drawPixels_cases (drawnPixels x y n s) (s.setFlag false)
  cases h.symm.trans hdraw
  rw [hps]
  rfl

/-- Dxyn inverts exactly the cells of its pixels. -/
theorem exec_drw_cell {x y : Reg} {n : Fin 16} {s t : State} (h : exec (.drw x y n) s = .next t) (px : Fin 64)
    (py : Fin 32) : t.cell px py = if (px, py) ∈ drawnPixels x y n s then !s.cell px py else s.cell px py := by
  obtain ⟨e, hdraw⟩ := exec_drw_eq x y n s
  cases h.symm.trans hdraw
  exact drawPixels_cell (drawnPixels_nodup x y n s) (s.setFlag false) px py

/-- With all rows inside memory, Dxyn draws the pixels of all of them and reports nothing. -/
theorem exec_drw_inBounds (x y : Reg) {n : Fin 16} {s : State} (h : ∀ r, r < n.val → s.addrAt r ≤ 0xFFF) :
    exec (.drw x y n) s = .next (drawPixels
      (spritePixels s ((s.getV x).toNat % 64) ((s.getV y).toNat % 32) (List.range n.val)) (s.setFlag false)) :=
  congrArg Host.Outcome.next (drawRows_inBounds (s := s.setFlag false) fun r hr => h r (List.mem_range.mp hr))

/-- Settles O55: the sprite's pixels are distinct, so each inverts its own cell, and VF tells whether one was lit. -/
theorem drawInvertsTheSpritesCells : Obligations.DrawInvertsTheSpritesCells := by
  intro s x y n hin
  have hbounds : ∀ r, r < n.val → s.addrAt r ≤ 0xFFF := fun r hr => by rw [State.addrAt]; omega
  have hmem := mem_spritePixels (x0 := (s.getV x).toNat % 64) (y0 := (s.getV y).toNat % 32) hbounds
  have hnodup := spritePixels_nodup s ((s.getV x).toNat % 64) ((s.getV y).toNat % 32) (Nat.lt_trans n.isLt (by decide))
  have hcell := drawPixels_cell hnodup (s.setFlag false)
  have hflag := drawPixels_flag hnodup (s.setFlag false)
  have hword := isWordOf_of_encode (i := .drw x y n) (wordXYN_toNat 0xD x y (BitVec.ofFin n))
  refine ⟨?_, _, exec_drw_inBounds x y hbounds, fun px py => ⟨fun hlit => ?_, fun hdark => ?_⟩, ?_, fun hdark => ?_,
    drawPixels_setFlag_onlyChanges _ s false⟩
  · rwa [Nat.mul_comm x.val, Nat.mul_comm y.val] at hword
  · rw [hcell, if_pos ((hmem px py).mpr hlit)]
    rfl
  · rw [hcell, if_neg fun h => hdark ((hmem px py).mp h)]
    rfl
  · rintro ⟨px, py, hlit, hset⟩
    rw [hflag, if_pos ⟨(px, py), (hmem px py).mpr hlit, hset⟩]
  · rw [hflag, if_neg, setFlag_getV, if_pos rfl]
    · rfl
    · rintro ⟨⟨px, py⟩, hp, hset⟩
      exact absurd hset (Bool.eq_false_iff.mp (hdark px py ((hmem px py).mp hp)))

theorem drawRows_addrAt (x0 y0 : Nat) (rows : List Nat) (s : State) (off : Nat) :
    (drawRows x0 y0 rows s).addrAt off = s.addrAt off := by
  obtain ⟨e, hdraw, _⟩ := drawRows_eq x0 y0 rows s
  obtain ⟨f, v, hps⟩ := drawPixels_cases (spritePixels s x0 y0 (rowsInside s rows)) s
  rw [hdraw, hps]
  rfl

/-- The first `m` rows, row `m`, and the rest. -/
theorem range_split {m n : Nat} (h : m < n) : ∃ rest, List.range n = List.range m ++ m :: rest := by
  obtain ⟨k, rfl⟩ := Nat.exists_eq_add_of_lt h
  rw [Nat.add_assoc, List.range_add, List.range_succ_eq_map]
  exact ⟨_, rfl⟩

/-- Rows inside memory up to row `m`, and row `m` outside: the draw of `n` rows is that of `m`, then the error. -/
theorem drawRows_stop {x0 y0 m n : Nat} {s : State} (hmn : m < n) (hin : ∀ r, r < m → s.addrAt r ≤ 0xFFF)
    (hout : 0xFFF < s.addrAt m) : drawRows x0 y0 (List.range n) s =
      (drawRows x0 y0 (List.range m) s).setErr (.outOfBoundsAccess (s.addrAt m)) := by
  obtain ⟨rest, hsplit⟩ := range_split hmn
  rw [hsplit, drawRows_append fun r hr => hin r (List.mem_range.mp hr),
    drawRows_fail (by rwa [drawRows_addrAt]), drawRows_addrAt]

/-- Settles O56: `m` counts the rows inside memory, so row `m` is the first one outside. -/
theorem drawStopsAtTheEndOfMemory : Obligations.DrawStopsAtTheEndOfMemory := by
  intro s x y m n hmn hm
  have haddr : ∀ r, (s.setFlag false).addrAt r = s.index.toNat + r := fun _ => rfl
  have hstop := drawRows_stop (x0 := (s.getV x).toNat % 64) (y0 := (s.getV y).toNat % 32) (s := s.setFlag false)
    (Fin.lt_def.mp hmn) (fun r hr => by rw [haddr]; omega) (by rw [haddr]; omega)
  rw [haddr, hm] at hstop
  exact ⟨_, rfl, congrArg Host.Outcome.next hstop⟩

/-- A draw at registers other than VF leaves what a second one reads: registers, `I` and memory. -/
theorem drawnPixels_exec_drw {x y : Reg} {n : Fin 16} {s t : State} (hx : x ≠ 0xF) (hy : y ≠ 0xF)
    (h : exec (.drw x y n) s = .next t) : drawnPixels x y n t = drawnPixels x y n s := by
  have honly := exec_drw_onlyChanges h
  have hgx : t.getV x = s.getV x := honly (.v x) (by simpa using hx)
  have hgy : t.getV y = s.getV y := honly (.v y) (by simpa using hy)
  have hindex : t.index = s.index := honly .index (by simp)
  rw [drawnPixels, drawnPixels, hgx, hgy, rowsInside_congr hindex, spritePixels_congr (exec_drw_mem h) hindex]

/-- Settles O57: both draws invert the cells of the same pixels. -/
theorem drawTwiceRestoresTheScreen : Obligations.DrawTwiceRestoresTheScreen := by
  intro s t u x y n hx hy hst htu px py
  rw [exec_drw_cell htu, drawnPixels_exec_drw hx hy hst, exec_drw_cell hst]
  split
  · exact Bool.not_not _
  · rfl

end Sys2Proof.Machine
end

section
/-! SUPPORT. The STEP around an instruction (R80 to R83): the fetch of two given bytes, the failed fetch, and the
word that the load interface places. -/

namespace Sys2Proof.Machine

/-- Two bytes read at `PC` are the fetched opcode, high byte first (R81). -/
theorem fetch_of_memRead {s : State} {b0 b1 : Byte} (h0 : memRead s s.pc.toNat = some b0)
    (h1 : memRead s (s.pc.toNat + 1) = some b1) : fetch s = .ok (opcodeOf b0 b1) := by
  simp only [fetch, h0, h1]

theorem opcodeOf_eq_ofNat (b0 b1 : Byte) : opcodeOf b0 b1 = BitVec.ofNat 16 (b0.toNat * 256 + b1.toNat) := by
  rw [← opcodeOf_toNat, BitVec.ofNat_toNat, BitVec.setWidth_eq]

theorem step_of_failedFetch {s : State} {a : Nat} (hmode : s.mode = .running) (hfetch : fetch s = .error a) :
    step s = .next (raise (.outOfBoundsAccess a) s) := by
  simp only [step, hmode, hfetch]

/-- Settles O6: the two bytes are the fetched word, and the STEP runs what it decodes to. -/
theorem stepRunsDecodedInstruction : Obligations.StepRunsDecodedInstruction := by
  intro s b0 b1 i hmode h0 h1 hdec _
  rw [← opcodeOf_eq_ofNat] at hdec
  exact step_of_decodeWord hmode (fetch_of_memRead h0 h1) hdec

/-- Settles O7: of the three things a fetch can do, the bound leaves the two failures. -/
theorem failedFetchChangesNothing : Obligations.FailedFetchChangesNothing := by
  intro s hmode hpc
  obtain ⟨hhigh, hfetch⟩ | ⟨hlast, hfetch⟩ | ⟨hlow, _⟩ := fetch_cases s
  · rw [if_neg (by omega)]
    exact step_of_failedFetch hmode hfetch
  · rw [if_pos hlast]
    exact step_of_failedFetch hmode hfetch
  · omega

/-- Settles O13: a STEP reads every element but `ERR`, and its own result replaces it. -/
theorem pastErrorsDoNotMatter : Obligations.PastErrorsDoNotMatter := fun _ _ => rfl

theorem placeWord_mode (op : Word) (s : State) : (placeWord op s).mode = .running := rfl

/-- The word is placed where two bytes fit. -/
theorem placeWord_pc_le (op : Word) (s : State) : (placeWord op s).pc.toNat ≤ 0xFFE := by
  change (if s.pc.toNat < Config.lastAddress then s.pc else 0x200).toNat ≤ 0xFFE
  split
  next h => simp only [Config.lastAddress] at h; omega
  next => decide

theorem placeWord_mem (op : Word) (s : State) : (placeWord op s).mem =
    (s.mem.write (placeWord op s).pc.toNat (highByte op)).write ((placeWord op s).pc.toNat + 1) (lowByte op) := rfl

/-- A placed word is fetched: both of its bytes are read back, the second store leaving the first (R51). -/
theorem fetch_placeWord (op : Word) {s : State} (hm : s.mem.wf = true) : fetch (placeWord op s) = .ok op := by
  have hpc := placeWord_pc_le op s
  have hm' := wf_write hm (show (placeWord op s).pc.toNat ≤ 0xFFF by omega) (highByte op)
  rw [← opcodeOf_bytes op]
  refine fetch_of_memRead ?_ ?_
  · rw [opcodeOf_bytes, memRead_eq, if_pos (by omega), placeWord_mem, read_write_ne (by omega), read_write_self hm]
  · rw [opcodeOf_bytes, memRead_eq, if_pos (by omega), placeWord_mem, read_write_self hm']

/-- A word of the opcode table is decoded as the decoder reads it from its own two bytes. -/
theorem decodeWord_of_decodeTableWord {nbits w : Nat} {i : Instr} (h : decodeTableWord nbits w = some i) :
    decodeWord (BitVec.ofNat 16 (w % 2 ^ nbits)) = .ok i := by
  simp only [decodeTableWord, decode, opcodeOf_bytes] at h
  cases hd : decodeWord (BitVec.ofNat 16 (w % 2 ^ nbits)) with
  | ok j => simpa only [hd, Option.some.injEq, Except.ok.injEq] using h
  | error e => simp only [hd, reduceCtorEq] at h

/-- Settles O18: the placed word is fetched in mode `Running`, and the STEP runs what it decodes to. -/
theorem placedWordIsRun : Obligations.PlacedWordIsRun := fun s _ _ hm hw =>
  step_of_decodeWord (placeWord_mode _ s) (fetch_placeWord _ hm) (decodeWord_of_decodeTableWord hw)

end Sys2Proof.Machine
end

section
/-! SUPPORT. What each instruction may change, said once for all 34 (the write column of R57, with R11, R13, R17,
R18, R20), and the rules about whole instructions and STEPs that follow from it. -/

namespace Sys2Proof.Machine

/-- The elements that an instruction may change. -/
def Writes (i : Instr) (e : Element) : Prop :=
  match i with
  | .cls => ∃ px py, e = .cell px py
  | .ret => (e = .sp ∨ e = .pc) ∨ e = .err
  | .call _ => (∃ k, e = .stack k ∨ e = .sp ∨ e = .pc) ∨ e = .err
  | .jp _ | .jpV0 _ | .seImm _ _ | .sneImm _ _ | .seReg _ _ | .sneReg _ _ | .skp _ | .sknp _ => e = .pc
  | .ldImm x _ | .addImm x _ | .ldReg x _ | .orReg x _ | .andReg x _ | .xorReg x _ | .ldVxDT x => e = .v x
  | .addReg x _ | .subReg x _ | .shr x _ | .subnReg x _ | .shl x _ => e = .v x ∨ e = .v flagReg
  | .ldI _ | .ldFVx _ => e = .index
  | .addIVx _ => e = .index ∨ e = .v flagReg
  | .rnd x _ => e = .v x ∨ e = .rnd
  | .drw _ _ _ => (e = .v flagReg ∨ ∃ px py, e = .cell px py) ∨ e = .err
  | .ldVxK x => e = .v x ∨ e = .mode
  | .ldDTVx _ => e = .dt
  | .ldSTVx _ => e = .st
  | .ldBVx _ | .ldMemVx _ => (∃ a, e = .byte a) ∨ e = .err
  | .ldVxMem x => e = .err ∨ ∃ r ∈ regsUpTo x, e = .v r

section Frames

variable (s : State)

theorem exec_ret_writes : ∃ t, exec .ret s = .next t ∧ OnlyChanges (Writes .ret) s t := by
  by_cases h : s.sp.val = 0
  · exact ⟨_, exec_ret_of_empty h, (setErr_onlyChanges s .stackUnderflow).mono fun _ he => .inr he⟩
  · have := s.sp.isLt
    obtain ⟨t, hpop, -, -, honly⟩ := popPc_takes (s := s) (k := ⟨s.sp.val - 1, by omega⟩) (Nat.succ_pred h)
    exact ⟨t, exec_ret_of_some hpop, honly.mono fun _ he => .inl he⟩

theorem exec_call_writes (nnn : Addr12) :
    ∃ t, exec (.call nnn) s = .next t ∧ OnlyChanges (Writes (.call nnn)) s t := by
  by_cases h : s.sp.val = 16
  · exact ⟨_, exec_call_of_full h nnn, (setErr_onlyChanges s .stackOverflow).mono fun _ he => .inr he⟩
  · have := s.sp.isLt
    obtain ⟨t, hcall, -, -, -, honly⟩ := exec_call_of_room (s := s) (k := ⟨s.sp.val, by omega⟩) rfl nnn
    exact ⟨t, hcall, honly.mono fun _ he => .inl ⟨_, he⟩⟩

theorem exec_ldVxK_writes (x : Reg) : ∃ t, exec (.ldVxK x) s = .next t ∧ OnlyChanges (Writes (.ldVxK x)) s t := by
  cases h : s.lowestKey with
  | some k => exact ⟨_, exec_ldVxK_of_some h, (setV_onlyChanges s x _).mono fun _ he => .inl he⟩
  | none => exact ⟨_, exec_ldVxK_of_none h, (setMode_onlyChanges s _).mono fun _ he => .inr he⟩

theorem exec_drw_writes (x y : Reg) (n : Fin 16) :
    ∃ t, exec (.drw x y n) s = .next t ∧ OnlyChanges (Writes (.drw x y n)) s t :=
  ⟨_, rfl, exec_drw_onlyChanges rfl⟩

theorem storeCells_writes (cells : List Host.Cell) :
    OnlyChanges (fun e => (∃ a, e = .byte a) ∨ e = .err) s (storeCells cells s) :=
  (storeCells_onlyChanges cells s).mono fun _ he => he.imp_left fun ⟨c, _, hc⟩ => ⟨c.1, hc⟩

end Frames

/-- Every instruction completes, and changes only what it may. -/
theorem exec_writes (i : Instr) (s : State) : ∃ t, exec i s = .next t ∧ OnlyChanges (Writes i) s t :=
  match i with
  | .cls => ⟨_, rfl, setFb_onlyChanges s _⟩
  | .ret => exec_ret_writes s
  | .call nnn => exec_call_writes s nnn
  | .jp _ | .jpV0 _ => ⟨_, rfl, setPc_onlyChanges s _⟩
  | .seImm .. | .sneImm .. | .seReg .. | .sneReg .. | .skp _ | .sknp _ => ⟨_, rfl, skipIf_onlyChanges _ s⟩
  | .ldImm .. | .addImm .. | .ldReg .. | .orReg .. | .andReg .. | .xorReg .. | .ldVxDT _ =>
    ⟨_, rfl, setV_onlyChanges s _ _⟩
  | .addReg .. | .subReg .. | .shr .. | .subnReg .. | .shl .. => ⟨_, rfl, setResultFlag_onlyChanges s _ _ _⟩
  | .ldI _ | .ldFVx _ => ⟨_, rfl, setIndex_onlyChanges s _⟩
  | .addIVx _ => ⟨_, rfl, setIndex_setFlag_onlyChanges s _ _⟩
  | .rnd .. => ⟨_, rfl, execRnd_onlyChanges s _ _⟩
  | .drw x y n => exec_drw_writes s x y n
  | .ldVxK x => exec_ldVxK_writes s x
  | .ldDTVx _ => ⟨_, rfl, setDT_onlyChanges s _⟩
  | .ldSTVx _ => ⟨_, rfl, setST_onlyChanges s _⟩
  | .ldBVx _ | .ldMemVx _ => ⟨_, rfl, storeCells_writes s _⟩
  | .ldVxMem _ => ⟨_, rfl, loadRegs_onlyChanges _ s⟩

/-- The frame of an instruction. -/
theorem exec_onlyChanges {i : Instr} {s t : State} (h : exec i s = .next t) : OnlyChanges (Writes i) s t := by
  obtain ⟨u, hu, honly⟩ := exec_writes i s
  cases h.symm.trans hu
  exact honly

/-- An element that an instruction changed is one it may change. -/
theorem writes_of_not_same {i : Instr} {s t : State} (h : exec i s = .next t) {e : Element} (he : ¬ e.Same s t) :
    Writes i e :=
  by_contra fun hw => he (exec_onlyChanges h e hw)

/-- Everything a STEP that answers `t` can have done (R80): a key poll, a failed fetch, an unknown opcode, or an
instruction. -/
theorem step_next_cases {s t : State} (h : step s = .next t) :
    (∃ x, s.mode = .waitingForKey x ∧ t = keyPoll x (beginEvent s)) ∨
    (s.mode = .running ∧ ∃ a, fetch s = .error a ∧ t = raise (.outOfBoundsAccess a) s) ∨
    (s.mode = .running ∧ ∃ op, fetch s = .ok op ∧ decodeWord op = .error (.unknownOpcode op) ∧
      t = raise (.unknownOpcode op) (enterExec s)) ∨
    (s.mode = .running ∧ ∃ op i, fetch s = .ok op ∧ decodeWord op = .ok i ∧ exec i (enterExec s) = .next t) := by
  obtain ⟨x, hs, hstep⟩ | ⟨hs, a, hfetch, hstep⟩ | ⟨hs, op, hfetch, hdec, hstep⟩ | ⟨hs, op, i, hfetch, hdec, hstep⟩ :=
    step_cases s
  · cases h.symm.trans hstep
    exact .inl ⟨x, hs, rfl⟩
  · cases h.symm.trans hstep
    exact .inr (.inl ⟨hs, a, hfetch, rfl⟩)
  · cases h.symm.trans hstep
    exact .inr (.inr (.inl ⟨hs, op, hfetch, hdec, rfl⟩))
  · exact .inr (.inr (.inr ⟨hs, op, i, hfetch, hdec, hstep.symm.trans h⟩))

/-- Settles O10: a key poll, a failed fetch and an unknown opcode are next states, and every instruction completes. -/
theorem stepAlwaysAnswers : Obligations.StepAlwaysAnswers := by
  intro s
  obtain ⟨x, _, hstep⟩ | ⟨_, a, _, hstep⟩ | ⟨_, op, _, _, hstep⟩ | ⟨_, op, i, _, _, hstep⟩ := step_cases s
  · exact ⟨_, hstep⟩
  · exact ⟨_, hstep⟩
  · exact ⟨_, hstep⟩
  · obtain ⟨t, ht, _⟩ := exec_writes i (enterExec s)
    exact ⟨t, hstep.trans ht⟩

/-! The instructions that may change an element, element by element. -/

section Writers

variable {i : Instr}

theorem writes_byte {a : Nat} (h : Writes i (.byte a)) : (∃ x, i = .ldBVx x) ∨ ∃ x, i = .ldMemVx x := by
  cases i <;> simp [Writes] at h ⊢

theorem writes_cell {px : Fin 64} {py : Fin 32} (h : Writes i (.cell px py)) : i = .cls ∨ ∃ x y n, i = .drw x y n := by
  cases i <;> simp [Writes] at h ⊢

theorem writes_sp (h : Writes i .sp) : i = .ret ∨ ∃ nnn, i = .call nnn := by
  cases i <;> simp [Writes] at h ⊢

theorem writes_stack {k : Fin 16} (h : Writes i (.stack k)) : ∃ nnn, i = .call nnn := by
  cases i <;> simp [Writes] at h ⊢

theorem not_writes_key : ¬ Writes i .key := by
  cases i <;> simp [Writes]

theorem writes_dt (h : Writes i .dt) : ∃ x, i = .ldDTVx x := by
  cases i <;> simp [Writes] at h ⊢

theorem writes_st (h : Writes i .st) : ∃ x, i = .ldSTVx x := by
  cases i <;> simp [Writes] at h ⊢

theorem writes_index (h : Writes i .index) : (∃ nnn, i = .ldI nnn) ∨ (∃ x, i = .addIVx x) ∨ ∃ x, i = .ldFVx x := by
  cases i <;> simp [Writes] at h ⊢

theorem writes_mode (h : Writes i .mode) : ∃ x, i = .ldVxK x := by
  cases i <;> simp [Writes] at h ⊢

theorem writes_rnd (h : Writes i .rnd) : ∃ x kk, i = .rnd x kk := by
  cases i <;> simp [Writes] at h ⊢

end Writers

/-- Settles O19: a store that changed is one the instruction may change, and its writers are known. -/
theorem storesHaveTheirOwnWriters : Obligations.StoresHaveTheirOwnWriters := by
  intro i s t h
  have hw := fun (e : Element) (he : ¬ e.Same s t) => writes_of_not_same h he
  refine ⟨?_, ?_, ?_, exec_onlyChanges h .key not_writes_key, fun he => writes_dt (hw .dt he),
    fun he => writes_st (hw .st he), fun he => writes_index (hw .index he), fun he => writes_mode (hw .mode he)⟩
  · rintro ⟨a, he⟩
    exact writes_byte (hw (.byte a) he)
  · rintro ⟨px, py, he⟩
    exact writes_cell (hw (.cell px py) he)
  · rintro (he | ⟨k, he⟩)
    · exact writes_sp (hw .sp he)
    · exact .inr (writes_stack (hw (.stack k) he))

end Sys2Proof.Machine
end

section
/-! SUPPORT. The flag register (R11): the instructions that may change it, and the value that the seven flag
instructions leave. -/

namespace Sys2Proof.Machine

theorem setResultFlag_flag_cases (s : State) (x : Reg) (r : Byte) (f : Bool) :
    (s.setResultFlag x r f).getV 0xF = 0 ∨ (s.setResultFlag x r f).getV 0xF = 1 := by
  rw [setResultFlag_getV, if_pos rfl]
  exact flagByte_cases f

theorem setFlag_flag_cases (s : State) (f : Bool) : (s.setFlag f).getV 0xF = 0 ∨ (s.setFlag f).getV 0xF = 1 := by
  rw [setFlag_getV, if_pos rfl]
  exact flagByte_cases f

/-- Dxyn leaves 0 or 1 in VF: the reset, or the 1 of a lit cell. -/
theorem exec_drw_flag_cases {x y : Reg} {n : Fin 16} {s t : State} (h : exec (.drw x y n) s = .next t) :
    t.getV 0xF = 0 ∨ t.getV 0xF = 1 := by
  obtain ⟨e, hdraw⟩ := exec_drw_eq x y n s
  cases h.symm.trans hdraw
  rw [setErr_getV]
  obtain hkept | hset := drawPixels_flag_cases (drawnPixels x y n s) (s.setFlag false)
  · rw [hkept]
    exact setFlag_flag_cases s false
  · exact .inr hset

/-- Settles O20: an instruction that changed VF may change it, so it is a flag instruction or has VF as destination. -/
theorem flagRegisterWriters : Obligations.FlagRegisterWriters := by
  intro i s t h hne
  have hw : Writes i (.v 0xF) := writes_of_not_same h hne
  cases i
  case addReg | subReg | shr | subnReg | shl =>
    cases h
    exact .inl ⟨by simp, setResultFlag_flag_cases ..⟩
  case addIVx =>
    cases h
    exact .inl ⟨by simp, setFlag_flag_cases ..⟩
  case drw => exact .inl ⟨by simp, exec_drw_flag_cases h⟩
  case ldVxMem x =>
    have hx : 0xF ≤ x := by simpa [Writes] using hw
    simp [le_antisymm (Fin.le_last x) hx]
  all_goals simp [Writes] at hw
  all_goals
    subst hw
    simp

end Sys2Proof.Machine
end

section
/-! SUPPORT. LOAD in its two cases (R192, R193), and the rules about the mode and the input `RND` over all five
events. -/

namespace Sys2Proof.Machine

section Load

variable {bytes : List Byte} (s : State)

theorem loadEvent_of_fits (h : bytes.length ≤ 3584) : loadEvent bytes s = loadFits bytes (beginEvent s) :=
  if_pos (decide_eq_true h)

theorem loadEvent_of_tooLarge (h : 3584 < bytes.length) : loadEvent bytes s = raise .romTooLarge s :=
  if_neg (by simp only [romOk, Config.progMax, decide_eq_true_eq]; omega)

end Load

/-- A STEP that enters the key wait executes Fx0A with no key down (R153). -/
theorem step_enters_wait {s t : State} {x : Reg} (hs : s.mode = .running) (h : step s = .next t)
    (ht : t.mode = .waitingForKey x) :
    (∀ k, s.keyDown k = false) ∧ ∃ op, fetch s = .ok op ∧ decodeWord op = .ok (.ldVxK x) := by
  obtain ⟨_, hwait, _⟩ | ⟨_, _, _, rfl⟩ | ⟨_, _, _, _, rfl⟩ | ⟨_, op, i, hfetch, hdec, hexec⟩ := step_next_cases h
  · cases hs.symm.trans hwait
  · cases hs.symm.trans ht
  · cases hs.symm.trans ht
  · have hne : t.mode ≠ (enterExec s).mode := fun he => by cases hs.symm.trans (he.symm.trans ht)
    obtain ⟨y, rfl⟩ := writes_mode (writes_of_not_same (e := .mode) hexec hne)
    obtain ⟨k, _, rfl⟩ | ⟨hkey, rfl⟩ := exec_ldVxK_cases hexec
    · exact absurd rfl hne
    · cases ht
      exact ⟨lowestKey_none.mp hkey, op, hfetch, hdec⟩

/-- A STEP that leaves the key wait finds a key pressed (R86). -/
theorem step_leaves_wait {s t : State} {x : Reg} (hs : s.mode = .waitingForKey x) (h : step s = .next t)
    (ht : t.mode ≠ .waitingForKey x) : t.mode = .running ∧ ∃ k, s.keyDown k = true := by
  cases h.symm.trans (step_of_waiting hs)
  cases hkey : (beginEvent s).lowestKey with
  | some k =>
    rw [keyPoll_of_some hkey]
    exact ⟨rfl, k, (lowestKey_some.mp hkey).1⟩
  | none =>
    rw [keyPoll_of_none hkey] at ht
    exact absurd hs ht

/-- Settles O22: event by event; LOAD and RESET only go to `Running`, TICK and KEYS keep the mode. -/
theorem keyWaitIsEnteredAndLeft : Obligations.KeyWaitIsEnteredAndLeft := by
  intro font e s t x h
  cases e with
  | reset =>
    cases h
    exact ⟨fun _ ht => (by cases ht), fun _ _ => ⟨rfl, .inr (.inl rfl)⟩⟩
  | load bytes =>
    cases h
    by_cases hfits : bytes.length ≤ 3584
    · rw [loadEvent_of_fits s hfits]
      exact ⟨fun _ ht => (by cases ht), fun _ _ => ⟨rfl, .inr (.inr ⟨bytes, rfl, hfits⟩)⟩⟩
    · rw [loadEvent_of_tooLarge s (by omega)]
      exact ⟨fun hs ht => (by cases hs.symm.trans ht), fun hs ht => absurd hs ht⟩
  | step =>
    refine ⟨fun hs ht => ⟨rfl, step_enters_wait hs h ht⟩, fun hs ht => ?_⟩
    obtain ⟨hrun, hkey⟩ := step_leaves_wait hs h ht
    exact ⟨hrun, .inl ⟨rfl, hkey⟩⟩
  | tick =>
    cases h
    exact ⟨fun hs ht => (by cases hs.symm.trans ht), fun hs ht => absurd hs ht⟩
  | keys k =>
    cases h
    exact ⟨fun hs ht => (by cases hs.symm.trans ht), fun hs ht => absurd hs ht⟩

/-- A STEP that does not execute Cxkk draws nothing. -/
theorem step_keeps_rnd {s t : State} (h : step s = .next t)
    (hnot : ¬ (s.mode = .running ∧ ∃ op x kk, fetch s = .ok op ∧ decodeWord op = .ok (.rnd x kk))) :
    Element.Same s t .rnd := by
  obtain ⟨x, _, rfl⟩ | ⟨_, _, _, rfl⟩ | ⟨_, _, _, _, rfl⟩ | ⟨hs, op, i, hfetch, hdec, hexec⟩ := step_next_cases h
  · exact keyPoll_onlyChanges x s .rnd (by simp)
  · exact ⟨rfl, rfl⟩
  · exact ⟨rfl, rfl⟩
  · refine exec_onlyChanges hexec .rnd fun hw => hnot ?_
    obtain ⟨x, kk, rfl⟩ := writes_rnd hw
    exact ⟨hs, op, x, kk, hfetch, hdec⟩

/-- A LOAD draws nothing, whether the program fits or not. -/
theorem loadEvent_keeps_rnd (bytes : List Byte) (s : State) : Element.Same s (loadEvent bytes s) .rnd := by
  by_cases hfits : bytes.length ≤ 3584
  · rw [loadEvent_of_fits s hfits]
    exact ⟨rfl, rfl⟩
  · rw [loadEvent_of_tooLarge s (by omega)]
    exact ⟨rfl, rfl⟩

/-- Settles O23: the STEP of Cxkk runs the one meaning that draws; the other events and STEPs keep the input. -/
theorem onlyRndConsumesRandomBytes : Obligations.OnlyRndConsumesRandomBytes := by
  intro font e s t h
  refine ⟨?_, fun hnot => ?_⟩
  · rintro ⟨rfl, hs, op, x, kk, hfetch, hdec⟩
    cases h.symm.trans (step_of_decodeWord hs hfetch hdec)
    exact ⟨rfl, rfl⟩
  · cases e with
    | reset => cases h; exact ⟨rfl, rfl⟩
    | load bytes => cases h; exact loadEvent_keeps_rnd bytes s
    | step => exact step_keeps_rnd h fun hrnd => hnot ⟨rfl, hrnd⟩
    | tick => cases h; exact ⟨rfl, rfl⟩
    | keys k => cases h; exact ⟨rfl, rfl⟩

end Sys2Proof.Machine
end

section
/-! SUPPORT. The host's events RESET, LOAD and KEYS (R175, R190 to R194), and the sound timer under TICKs (R174). -/

namespace Sys2Proof.Machine

/-- Settles O25: the default table leaves no cell, and the event RESET keeps only the input `RND` of the state
before. -/
theorem resetDiscardsEverything : Obligations.ResetDiscardsEverything := by
  refine ⟨by decide, fun font s => ⟨_, rfl, fun e he => ?_, ⟨rfl, rfl⟩⟩⟩
  cases e with
  | rnd => exact absurd rfl he
  | _ => rfl

/-- Settles O27: the failing case of LOAD. -/
theorem tooLargeProgramIsRefused : Obligations.TooLargeProgramIsRefused := fun _ s _ h =>
  congrArg Host.Outcome.next (loadEvent_of_tooLarge s h)

/-- Memory after a LOAD that fits, as a read tells it. -/
theorem memRead_loadFits {bytes : List Byte} (h : bytes.length ≤ 3584) (s : State) {a : Nat} (ha : a ≤ 0xFFF) :
    memRead (loadFits bytes s) a = some (if a < 0x200 then s.mem.read a else bytes.getD (a - 0x200) 0) := by
  rw [← read_loadProgram s.mem bytes h]
  exact if_pos ha

/-- LOAD leaves the font region and every element that it does not set. -/
theorem loadFits_onlyChanges {bytes : List Byte} (h : bytes.length ≤ 3584) (s : State) :
    OnlyChanges (fun e => e = .pc ∨ e = .mode ∨ e = .err ∨ ∃ a, 0x200 ≤ a ∧ e = .byte a) s
      (loadFits bytes (beginEvent s)) := by
  intro e he
  cases e with
  | byte a =>
    have ha : a < 0x200 := by simpa using he
    refine (memRead_loadFits h (beginEvent s) (by omega)).trans ?_
    rw [if_pos ha]
    exact (if_pos (show a ≤ Config.lastAddress by simp only [Config.lastAddress]; omega)).symm
  | pc | mode | err => simp at he
  | rnd => exact ⟨rfl, rfl⟩
  | _ => rfl

/-- Settles O26: below the program's length a read gives its byte, from there on 0. -/
theorem loadPlacesTheProgram : Obligations.LoadPlacesTheProgram := by
  intro font s bytes h
  refine ⟨_, congrArg Host.Outcome.next (loadEvent_of_fits s h), rfl, rfl, rfl, fun i hi => ?_, fun a hlo hhi => ?_,
    loadFits_onlyChanges h s⟩
  · rw [memRead_loadFits h _ (by omega), if_neg (by omega), Nat.add_sub_cancel_left, List.getD_eq_getElem _ _ hi]
  · rw [memRead_loadFits h _ hhi, if_neg (by omega), List.getD_eq_default _ _ (by omega)]

theorem setKey_onlyChanges (s : State) (k : Word) : OnlyChanges (· = .key) s (s.setKey k) := fun e he => by
  cases e <;> simp [Element.Same] at he ⊢

/-- Settles O29: KEYS is a write to `ERR` and one to `KEY`. -/
theorem keysReplaceTheVector : Obligations.KeysReplaceTheVector := fun _ s k =>
  ⟨_, rfl, setKey_keyDown (beginEvent s) k, ((setErr_onlyChanges s .none).mono fun _ h => .inr h).trans
    ((setKey_onlyChanges (beginEvent s) k).mono fun _ h => .inl h)⟩

/-- Settles O30: a TICK sounds while the timer is above 0, and takes 1 from it. -/
theorem soundLastsAsLongAsTheTimer : Obligations.SoundLastsAsLongAsTheTimer := by
  intro s n
  induction n generalizing s with
  | zero =>
    intro h
    rw [soundingTicks]
    omega
  | succ n ih =>
    intro h
    have htick : ((tickWithSound s).2).st.toNat = s.st.toNat - 1 := countDown_toNat s.st
    have hsound : (tickWithSound s).1 = decide (s.st.toNat > 0) := rfl
    rw [soundingTicks, ih _ (by omega), htick, hsound]
    by_cases hpos : s.st.toNat > 0
    · rw [decide_eq_true hpos, if_pos rfl]
      omega
    · rw [decide_eq_false hpos, if_neg Bool.false_ne_true]
      omega

end Sys2Proof.Machine
end

section
/-! SUPPORT. `PC` after a STEP against the table of R87: each control transfer has its row, every other instruction
leaves the advanced `PC`. -/

namespace Sys2Proof.Machine

theorem addrImm_eq_ofNat (nnn : Addr12) : addrImm nnn = BitVec.ofNat 16 nnn.toNat := (BitVec.ofNat_toNat 16 nnn).symm

theorem jumpTarget_eq_ofNat (s : State) (nnn : Addr12) :
    jumpTarget s nnn = BitVec.ofNat 16 (nnn.toNat + (s.getV 0).toNat) := by
  rw [← jumpTarget_toNat, BitVec.ofNat_toNat, BitVec.setWidth_eq]

/-- A skip in the state with `PC` advanced (R82, R104). -/
theorem skipIf_enterExec_pc {c : Bool} {p : Prop} [Decidable p] (h : c = true ↔ p) (s : State) :
    (skipIf c (enterExec s)).pc = pcAfterSkip p s := by
  rw [skipIf_pc, pcAfterSkip, enterExec_pc, BitVec.add_assoc]
  exact if_congr h rfl rfl

theorem exec_call_pc {nnn : Addr12} {s t : State} (h : exec (.call nnn) (enterExec s) = .next t) :
    t.pc = pcAfter (.call nnn) s := by
  rw [pcAfter, ← addrImm_eq_ofNat]
  obtain ⟨hlt, rfl⟩ | ⟨hfull, rfl⟩ := exec_call_cases h
  · exact (if_neg (Nat.ne_of_lt hlt)).symm
  · exact (if_pos hfull).symm

theorem exec_ret_pc {s t : State} (h : exec .ret (enterExec s) = .next t) : t.pc = pcAfter .ret s := by
  rw [pcAfter]
  obtain ⟨hempty, rfl⟩ | ⟨hne, hlt, rfl⟩ := exec_ret_cases h
  · exact (if_pos hempty).symm
  · refine Eq.trans ?_ (if_neg hne).symm
    exact (List.getD_eq_getElem s.stack.toList 0 (by rw [Vector.length_toList]; exact hlt)).symm

/-- The row of an instruction in the table of R87. -/
theorem exec_pc {i : Instr} {s t : State} (h : exec i (enterExec s) = .next t) : t.pc = pcAfter i s := by
  cases i with
  | jp nnn => cases h; exact addrImm_eq_ofNat nnn
  | call nnn => exact exec_call_pc h
  | ret => exact exec_ret_pc h
  | jpV0 nnn => cases h; exact jumpTarget_eq_ofNat (enterExec s) nnn
  | seImm x kk => cases h; exact skipIf_enterExec_pc beq_iff_eq s
  | sneImm x kk => cases h; exact skipIf_enterExec_pc bne_iff_ne s
  | seReg x y => cases h; exact skipIf_enterExec_pc beq_iff_eq s
  | sneReg x y => cases h; exact skipIf_enterExec_pc bne_iff_ne s
  | skp x => cases h; exact skipIf_enterExec_pc Iff.rfl s
  | sknp x => cases h; exact skipIf_enterExec_pc (by rw [Bool.not_eq_true']; rfl) s
  | _ => exact exec_onlyChanges h .pc (by simp [Writes])

section Tables

variable {s : State}

theorem stepPc_of_waiting {x : Reg} (h : s.mode = .waitingForKey x) : stepPc s = s.pc := by
  simp only [stepPc, h]

theorem stepPc_of_failedFetch {a : Nat} (hs : s.mode = .running) (h : fetch s = .error a) : stepPc s = s.pc := by
  obtain ⟨hpc, _⟩ | ⟨hpc, _⟩ | ⟨_, hok⟩ := fetch_cases s
  · simp only [stepPc, hs, if_pos (show s.pc.toNat ≥ 0xFFF by omega)]
  · simp only [stepPc, hs, if_pos (show s.pc.toNat ≥ 0xFFF by omega)]
  · cases h.symm.trans hok

/-- A fetch that succeeds, as the tables' test of `PC` and the word that they decode. -/
theorem fetch_ok {op : Word} (h : fetch s = .ok op) : s.pc.toNat ≤ 0xFFE ∧
    op = opcodeOf (s.mem.read s.pc.toNat) (s.mem.read (s.pc.toNat + 1)) := by
  obtain ⟨_, herr⟩ | ⟨_, herr⟩ | ⟨hpc, hok⟩ := fetch_cases s
  · cases h.symm.trans herr
  · cases h.symm.trans herr
  · cases h.symm.trans hok
    exact ⟨hpc, rfl⟩

theorem stepPc_of_unknown {op : Word} {e : DecodeError} (hs : s.mode = .running) (h : fetch s = .ok op)
    (hd : decodeWord op = .error e) : stepPc s = s.pc + 2 := by
  obtain ⟨hpc, rfl⟩ := fetch_ok h
  simp only [stepPc, hs, hd, if_neg (show ¬ s.pc.toNat ≥ 0xFFF by omega)]

theorem stepPc_of_decoded {op : Word} {i : Instr} (hs : s.mode = .running) (h : fetch s = .ok op)
    (hd : decodeWord op = .ok i) : stepPc s = pcAfter i s := by
  obtain ⟨hpc, rfl⟩ := fetch_ok h
  simp only [stepPc, hs, hd, if_neg (show ¬ s.pc.toNat ≥ 0xFFF by omega)]

end Tables

/-- Settles O11: the four things a STEP can do are the cases of the table. -/
theorem stepPcFollowsTheTable : Obligations.StepPcFollowsTheTable := by
  intro s t h
  obtain ⟨x, hs, rfl⟩ | ⟨hs, a, hfetch, rfl⟩ | ⟨hs, op, hfetch, hdec, rfl⟩ | ⟨hs, op, i, hfetch, hdec, hexec⟩ :=
    step_next_cases h
  · rw [stepPc_of_waiting hs]
    exact keyPoll_onlyChanges x s .pc (by simp)
  · rw [stepPc_of_failedFetch hs hfetch]
    rfl
  · rw [stepPc_of_unknown hs hfetch hdec]
    rfl
  · rw [stepPc_of_decoded hs hfetch hdec]
    exact exec_pc hexec

end Sys2Proof.Machine
end

section
/-! SUPPORT. The error of a STEP against R160 and R170: the accesses from `I` upward report by `rangeErr`, the call
stack by its two bounds, every other instruction reports nothing. -/

namespace Sys2Proof.Machine

section Range

variable {s : State} (herr : s.err = .none)
include herr

/-- Accesses that all lie inside memory, or none at all, report nothing. -/
theorem rangeErr_of_inside {n : Nat} (h : ¬ (0 < n ∧ s.index.toNat + n > 0x1000)) : s.err = rangeErr n s := by
  rw [herr, rangeErr, if_neg h]

/-- Stores to the addresses from `I` upward. -/
theorem storeCells_err {cells : List Host.Cell} (hl : cells.map Prod.fst = List.range' s.index.toNat cells.length) :
    (storeCells cells s).err = rangeErr cells.length s := by
  by_cases h : 0 < cells.length ∧ s.index.toNat + cells.length > 0x1000
  · rw [storeCells_pastEnd hl h.1 h.2, rangeErr, if_pos h]
    rfl
  · have hin : ∀ c ∈ cells, c.1 ≤ 0xFFF := fun c hc =>
      consecutive_inside hl (by have := List.length_pos_of_mem hc; omega) c hc
    rw [storeCells_inBounds hin]
    exact rangeErr_of_inside herr h

/-- Loads of the registers up to `x` from `I` upward. -/
theorem loadRegs_regsUpTo_err (x : Reg) : (loadRegs (regsUpTo x) s).err = rangeErr (x.val + 1) s := by
  have hl := regsUpTo_consecutive s x
  by_cases h : 0 < x.val + 1 ∧ s.index.toNat + (x.val + 1) > 0x1000
  · rw [← regsUpTo_length x] at h
    rw [loadRegs_pastEnd hl h.1 h.2, ← regsUpTo_length x, rangeErr, if_pos h]
    rfl
  · rw [loadRegs_inBounds_err (regsUpTo_inside (by omega))]
    exact rangeErr_of_inside herr h

/-- The rows of a sprite from `I` upward. -/
theorem drawRows_range_err (x0 y0 n : Nat) : (drawRows x0 y0 (List.range n) s).err = rangeErr n s := by
  by_cases h : 0 < n ∧ s.index.toNat + n > 0x1000
  · have hfirst : s.addrAt (0x1000 - s.index.toNat) = max s.index.toNat 0x1000 := by rw [State.addrAt]; omega
    rw [drawRows_stop (m := 0x1000 - s.index.toNat) (by omega) (fun r hr => by rw [State.addrAt]; omega)
      (by rw [hfirst]; omega), hfirst, rangeErr, if_pos h]
    rfl
  · have hin : ∀ r ∈ List.range n, s.addrAt r ≤ 0xFFF := fun r hr => by
      rw [List.mem_range] at hr
      rw [State.addrAt]
      omega
    obtain ⟨f, v, hps⟩ := drawPixels_cases (spritePixels s x0 y0 (List.range n)) s
    rw [drawRows_inBounds hin, hps]
    exact rangeErr_of_inside herr h

end Range

theorem exec_call_err {nnn : Addr12} {s t : State} (h : exec (.call nnn) (enterExec s) = .next t) :
    t.err = instrErr (.call nnn) s := by
  obtain ⟨hlt, rfl⟩ | ⟨hfull, rfl⟩ := exec_call_cases h
  · exact (if_neg (Nat.ne_of_lt hlt)).symm
  · exact (if_pos hfull).symm

theorem exec_ret_err {s t : State} (h : exec .ret (enterExec s) = .next t) : t.err = instrErr .ret s := by
  obtain ⟨hempty, rfl⟩ | ⟨hne, hlt, rfl⟩ := exec_ret_cases h
  · exact (if_pos hempty).symm
  · exact (if_neg hne).symm

/-- The error that an instruction of a STEP reports. -/
theorem exec_err {i : Instr} {s t : State} (h : exec i (enterExec s) = .next t) : t.err = instrErr i s := by
  cases i with
  | call nnn => exact exec_call_err h
  | ret => exact exec_ret_err h
  | drw x y n => cases h; exact drawRows_range_err (s := (enterExec s).setFlag false) rfl _ _ n.val
  | ldBVx x => cases h; exact storeCells_err (s := enterExec s) rfl (bcdCells_consecutive (enterExec s) x)
  | ldMemVx x =>
    cases h
    refine (storeCells_err (s := enterExec s) rfl (regCells_consecutive (enterExec s) x)).trans ?_
    rw [regCells_length]
    rfl
  | ldVxMem x => cases h; exact loadRegs_regsUpTo_err (s := enterExec s) rfl x
  | _ => exact exec_onlyChanges h .err (by simp [Writes])

section Tables

variable {s : State}

theorem stepErr_of_waiting {x : Reg} (h : s.mode = .waitingForKey x) : stepErr s = .none := by
  simp only [stepErr, h]

theorem stepErr_of_failedFetch {a : Nat} (hs : s.mode = .running) (h : fetch s = .error a) :
    stepErr s = .outOfBoundsAccess a := by
  obtain ⟨hpc, herr⟩ | ⟨hpc, herr⟩ | ⟨_, hok⟩ := fetch_cases s
  · cases h.symm.trans herr
    simp only [stepErr, hs, if_pos hpc]
  · cases h.symm.trans herr
    simp only [stepErr, hs, hpc]
    rfl
  · cases h.symm.trans hok

theorem stepErr_of_unknown {op : Word} {e : DecodeError} (hs : s.mode = .running) (h : fetch s = .ok op)
    (hd : decodeWord op = .error e) : stepErr s = .unknownOpcode op := by
  obtain ⟨hpc, rfl⟩ := fetch_ok h
  simp only [stepErr, hs, hd, if_neg (show ¬ s.pc.toNat ≥ 0x1000 by omega), if_neg (show s.pc.toNat ≠ 0xFFF by omega)]

theorem stepErr_of_decoded {op : Word} {i : Instr} (hs : s.mode = .running) (h : fetch s = .ok op)
    (hd : decodeWord op = .ok i) : stepErr s = instrErr i s := by
  obtain ⟨hpc, rfl⟩ := fetch_ok h
  simp only [stepErr, hs, hd, if_neg (show ¬ s.pc.toNat ≥ 0x1000 by omega), if_neg (show s.pc.toNat ≠ 0xFFF by omega)]

end Tables

/-- Settles O12: the four things a STEP can do, in the order of R170. -/
theorem stepReportsItsError : Obligations.StepReportsItsError := by
  intro s t h
  obtain ⟨x, hs, rfl⟩ | ⟨hs, a, hfetch, rfl⟩ | ⟨hs, op, hfetch, hdec, rfl⟩ | ⟨hs, op, i, hfetch, hdec, hexec⟩ :=
    step_next_cases h
  · obtain ⟨v, m, hpoll⟩ := keyPoll_eq x (beginEvent s)
    rw [stepErr_of_waiting hs, hpoll]
    rfl
  · rw [stepErr_of_failedFetch hs hfetch]
    rfl
  · rw [stepErr_of_unknown hs hfetch hdec]
    rfl
  · rw [stepErr_of_decoded hs hfetch hdec]
    exact exec_err hexec

end Sys2Proof.Machine
end

section
/-! SUPPORT. The invariant of every reachable state (R14, R90, R160; log 8): reset has it, every STEP keeps it by
the tables of `PC` and `ERR`, and the other events keep it. -/

namespace Sys2Proof.Machine

/-- An event that leaves memory, `PC` and the stack keeps the invariant when its error is in range. -/
theorem State.Inv.congr {s t : State} (h : s.Inv) (hmem : t.mem = s.mem) (hpc : t.pc = s.pc)
    (hstack : t.stack = s.stack) (herr : t.err.InRange) : t.Inv where
  memWf := hmem ▸ h.memWf
  pcBound := hpc ▸ h.pcBound
  stackBound := hstack ▸ h.stackBound
  errRange := herr

theorem resetWithFont_inv (font : Config.Font) : (State.resetWithFont font).Inv where
  memWf := wf_resetWithFont font
  pcBound := Nat.zero_le _
  stackBound k := by
    rw [resetWithFont_stack]
    decide
  errRange := trivial

/-- Settles O14: `State.reset` is the reset state of the default table. -/
theorem resetMeetsInvariant : Obligations.ResetMeetsInvariant := by
  obtain ⟨hdefault, _⟩ := resetDiscardsEverything
  exact ⟨hdefault ▸ resetWithFont_inv Config.defaultFont, resetWithFont_inv⟩

/-! The canonical form of memory. -/

theorem storeCells_mem_wf (cells : List Host.Cell) {s : State} (hm : s.mem.wf = true) :
    (storeCells cells s).mem.wf = true := by
  obtain ⟨m, e, hstore, hwf, _⟩ := storeCells_cases cells s
  rw [hstore]
  exact hwf hm

theorem loadRegs_mem (regs : List Reg) (s : State) : (loadRegs regs s).mem = s.mem := by
  obtain ⟨v, e, hload, _⟩ := loadRegs_cases regs s
  rw [hload]

@[simp] theorem skipIf_mem (c : Bool) (s : State) : (skipIf c s).mem = s.mem := by
  cases c <;> rfl

/-- Every instruction keeps the canonical form: the two stores by `storeCells_mem_wf`, the others leave memory as
data. -/
theorem exec_mem_wf {i : Instr} {s t : State} (h : exec i s = .next t) (hm : s.mem.wf = true) : t.mem.wf = true := by
  cases i with
  | ldBVx | ldMemVx => cases h; exact storeCells_mem_wf _ hm
  | ret => obtain ⟨_, rfl⟩ | ⟨_, _, rfl⟩ := exec_ret_cases h <;> exact hm
  | call nnn => obtain ⟨_, rfl⟩ | ⟨_, rfl⟩ := exec_call_cases h <;> exact hm
  | seImm | sneImm | seReg | sneReg | skp | sknp => cases h; rwa [skipIf_mem]
  | drw x y n => rwa [exec_drw_mem h]
  | ldVxK x => obtain ⟨_, _, rfl⟩ | ⟨_, rfl⟩ := exec_ldVxK_cases h <;> exact hm
  | ldVxMem x => cases h; rwa [loadRegs_mem]
  | _ => cases h; exact hm

/-! The stack: the one entry that changes takes `PC`. -/

theorem exec_call_stack {nnn : Addr12} {s t : State} (h : exec (.call nnn) s = .next t) (k : Fin 16) :
    t.stack[k.val] = s.stack[k.val] ∨ t.stack[k.val] = s.pc := by
  obtain ⟨hlt, rfl⟩ | ⟨_, rfl⟩ := exec_call_cases h
  · rw [Vector.getElem_set]
    split
    · exact .inr rfl
    · exact .inl rfl
  · exact .inl rfl

theorem exec_stack {i : Instr} {s t : State} (h : exec i s = .next t) (k : Fin 16) :
    t.stack[k.val] = s.stack[k.val] ∨ t.stack[k.val] = s.pc := by
  by_cases hw : Writes i (.stack k)
  · obtain ⟨nnn, rfl⟩ := writes_stack hw
    exact exec_call_stack h k
  · exact .inl (exec_onlyChanges h (.stack k) hw)

/-! The two tables within the bounds. -/

theorem addTwo_toNat {w : Word} (h : w.toNat ≤ 0xFFE) : (w + 2).toNat = w.toNat + 2 :=
  BitVec.toNat_add_of_lt (show w.toNat + 2 < 65536 by omega)

theorem pcAfterSkip_le {s : State} (h : s.pc.toNat ≤ 0xFFE) (p : Prop) [Decidable p] :
    (pcAfterSkip p s).toNat ≤ 0x1002 := by
  have h4 : (s.pc + 4).toNat = s.pc.toNat + 4 := BitVec.toNat_add_of_lt (show s.pc.toNat + 4 < 65536 by omega)
  have h2 := addTwo_toNat h
  rw [pcAfterSkip]
  split <;> omega

theorem stack_getD_le {s : State} (h : ∀ k : Fin 16, (s.stack[k.val]).toNat ≤ 0x1000) (j : Nat) :
    (s.stack.toList.getD j 0).toNat ≤ 0x1000 := by
  by_cases hj : j < 16
  · rw [List.getD_eq_getElem _ _ (by rwa [Vector.length_toList]), Vector.getElem_toList]
    exact h ⟨j, hj⟩
  · rw [List.getD_eq_default _ _ (by rw [Vector.length_toList]; omega)]
    decide

/-- The table of R87 stays below 0x10FF for a `PC` that can be fetched from (R14). -/
theorem pcAfter_le {s : State} (h : s.pc.toNat ≤ 0xFFE) (hstack : ∀ k : Fin 16, (s.stack[k.val]).toNat ≤ 0x1000)
    (i : Instr) : (pcAfter i s).toNat ≤ 0x10FE := by
  have h2 := addTwo_toNat h
  cases i with
  | jp nnn =>
    have := nnn.isLt
    rw [pcAfter, ← addrImm_eq_ofNat, addrImm_toNat]
    omega
  | call nnn =>
    have := nnn.isLt
    rw [pcAfter, ← addrImm_eq_ofNat]
    split
    · omega
    · rw [addrImm_toNat]
      omega
  | ret =>
    have := stack_getD_le hstack (s.sp.val - 1)
    rw [pcAfter]
    split <;> omega
  | jpV0 nnn =>
    have := nnn.isLt
    have := (s.getV 0).isLt
    rw [pcAfter, ← jumpTarget_eq_ofNat, jumpTarget_toNat]
    omega
  | seImm | sneImm | seReg | sneReg | skp | sknp => exact Nat.le_trans (pcAfterSkip_le h _) (by decide)
  | _ => exact Nat.le_trans (Nat.le_of_eq h2) (by omega)

theorem rangeErr_inRange (n : Nat) (s : State) : (rangeErr n s).InRange := by
  have := s.index.isLt
  rw [rangeErr]
  split
  · exact ⟨by omega, by omega⟩
  · trivial

theorem instrErr_inRange (i : Instr) (s : State) : (instrErr i s).InRange := by
  cases i with
  | call nnn => rw [instrErr]; split <;> trivial
  | ret => rw [instrErr]; split <;> trivial
  | drw | ldBVx | ldMemVx | ldVxMem => exact rangeErr_inRange _ s
  | _ => trivial

/-- A word that the decoder rejects is no row of the opcode map. -/
theorem wordKnown_of_unknown {op : Word} {e : DecodeError} (h : decodeWord op = .error e) : wordKnown op = false := by
  rw [wordKnown, List.any_eq_false]
  intro r hr hmatch
  obtain ⟨i, hdec, _⟩ := decodeWord_of_matches hr (beq_iff_eq.mp hmatch)
  cases h.symm.trans hdec

/-- A failed fetch reports an address of the range, since `PC` is bounded. -/
theorem failedFetch_inRange {s : State} {a : Nat} (hpc : s.pc.toNat ≤ 0x10FE) (h : fetch s = .error a) :
    (Err.outOfBoundsAccess a).InRange := by
  obtain ⟨hhigh, herr⟩ | ⟨_, herr⟩ | ⟨_, hok⟩ := fetch_cases s
  · cases h.symm.trans herr
    exact ⟨hhigh, by omega⟩
  · cases h.symm.trans herr
    exact ⟨by decide, by decide⟩
  · cases h.symm.trans hok

/-- An instruction in a state that meets the invariant: memory and the stack by what it does to them, `PC` and `ERR` by
their tables. -/
theorem exec_inv {i : Instr} {s t : State} (h : s.Inv) (hpc : s.pc.toNat ≤ 0xFFE)
    (hexec : exec i (enterExec s) = .next t) : t.Inv where
  memWf := exec_mem_wf hexec h.memWf
  pcBound := exec_pc hexec ▸ pcAfter_le hpc h.stackBound i
  stackBound k := by
    have h2 := addTwo_toNat hpc
    obtain hkept | hpushed := exec_stack hexec k
    · rw [hkept]
      exact h.stackBound k
    · rw [hpushed, enterExec_pc]
      omega
  errRange := exec_err hexec ▸ instrErr_inRange i s

/-- Settles O15: the four things a STEP can do; only an unknown opcode and an instruction move `PC`, which a fetch has
bounded. -/
theorem stepKeepsInvariant : Obligations.StepKeepsInvariant := by
  intro s t h hst
  obtain ⟨x, _, rfl⟩ | ⟨_, a, hfetch, rfl⟩ | ⟨_, op, hfetch, hdec, rfl⟩ | ⟨_, op, i, hfetch, _, hexec⟩ :=
    step_next_cases hst
  · obtain ⟨v, m, hpoll⟩ := keyPoll_eq x (beginEvent s)
    rw [hpoll]
    exact h.congr rfl rfl rfl trivial
  · exact h.congr rfl rfl rfl (failedFetch_inRange h.pcBound hfetch)
  · obtain ⟨hpc, _⟩ := fetch_ok hfetch
    have h2 := addTwo_toNat hpc
    exact ⟨h.memWf, Nat.le_trans (Nat.le_of_eq h2) (by omega), h.stackBound, wordKnown_of_unknown hdec⟩
  · obtain ⟨hpc, _⟩ := fetch_ok hfetch
    exact exec_inv h hpc hexec

/-- LOAD keeps the invariant: it puts a canonical program and sets `PC` to 0x200, or changes nothing but `ERR`. -/
theorem loadEvent_inv (bytes : List Byte) {s : State} (h : s.Inv) : (loadEvent bytes s).Inv := by
  by_cases hfits : bytes.length ≤ 3584
  · rw [loadEvent_of_fits s hfits]
    exact ⟨wf_loadProgram h.memWf hfits, show (0x200#16).toNat ≤ 0x10FE by decide, h.stackBound, trivial⟩
  · rw [loadEvent_of_tooLarge s (by omega)]
    exact h.congr rfl rfl rfl trivial

/-- Every event keeps the invariant. -/
theorem handle_inv {font : Config.Font} {e : Event} {s t : State} (h : s.Inv) (ht : handle font e s = .next t) :
    t.Inv := by
  cases e with
  | reset => cases ht; exact (resetWithFont_inv font).congr rfl rfl rfl trivial
  | load bytes => cases ht; exact loadEvent_inv bytes h
  | step => exact stepKeepsInvariant s t h ht
  | tick => cases ht; exact h.congr rfl rfl rfl trivial
  | keys k => cases ht; exact h.congr rfl rfl rfl trivial

/-- Settles O16: by induction on the events that lead to the state. -/
theorem reachableStatesMeetInvariant : Obligations.ReachableStatesMeetInvariant := by
  intro font s hs
  induction hs with
  | reset => exact resetWithFont_inv font
  | event _ ht ih => exact handle_inv ih ht
  | supply bytes _ ih => exact ih.congr rfl rfl rfl ih.errRange

end Sys2Proof.Machine
end

section
/-! SUPPORT. What a program cannot see (R16, R27): a STEP commutes with a change of `ST` and of the stack entries at
or above `SP`, up to such a change of its result. -/

namespace Sys2Proof.Machine

/-- The state with another `ST` and another stack. -/
def setUnseen (b : Byte) (stack : Vector Word 16) (s : State) : State := { s with st := b, stack := stack }

section Unseen

variable (b : Byte) (stack : Vector Word 16)

theorem storeCells_setUnseen (cells : List Host.Cell) (s : State) :
    storeCells cells (setUnseen b stack s) = setUnseen b stack (storeCells cells s) := by
  induction cells generalizing s with
  | nil => rfl
  | cons c cells ih =>
    obtain ⟨a, v⟩ := c
    by_cases h : a ≤ 0xFFF
    · simp only [storeCells, memWrite_eq, if_pos h]
      exact ih (s.setMem (s.mem.write a v))
    · rw [storeCells_fail (by omega), storeCells_fail (by omega)]
      rfl

theorem loadRegs_setUnseen (regs : List Reg) (s : State) :
    loadRegs regs (setUnseen b stack s) = setUnseen b stack (loadRegs regs s) := by
  induction regs generalizing s with
  | nil => rfl
  | cons r regs ih =>
    by_cases h : s.addrAt r.val ≤ 0xFFF
    · have h' : (setUnseen b stack s).addrAt r.val ≤ 0xFFF := h
      simp only [loadRegs, memRead_eq, if_pos h, if_pos h']
      exact ih (s.setV r _)
    · rw [loadRegs_fail (Nat.lt_of_not_le h), loadRegs_fail (s := setUnseen b stack s) (Nat.lt_of_not_le h)]
      rfl

theorem drawPixel_setUnseen (px : Fin 64) (py : Fin 32) (s : State) :
    drawPixel px py (setUnseen b stack s) = setUnseen b stack (drawPixel px py s) := by
  have hcell : (setUnseen b stack s).cell px py = s.cell px py := rfl
  rw [drawPixel, drawPixel, hcell]
  cases s.cell px py <;> rfl

theorem drawPixels_setUnseen (ps : List (Fin 64 × Fin 32)) (s : State) :
    drawPixels ps (setUnseen b stack s) = setUnseen b stack (drawPixels ps s) := by
  induction ps generalizing s with
  | nil => rfl
  | cons p ps ih => rw [drawPixels_cons, drawPixels_cons, drawPixel_setUnseen, ih]

theorem drawRows_setUnseen (x0 y0 : Nat) (rows : List Nat) (s : State) :
    drawRows x0 y0 rows (setUnseen b stack s) = setUnseen b stack (drawRows x0 y0 rows s) := by
  induction rows generalizing s with
  | nil => rfl
  | cons r rows ih =>
    by_cases h : s.addrAt r ≤ 0xFFF
    · rw [drawRows_ok h, drawRows_ok (s := setUnseen b stack s) h, drawPixels_setUnseen]
      exact ih _
    · rw [drawRows_fail (Nat.lt_of_not_le h), drawRows_fail (s := setUnseen b stack s) (Nat.lt_of_not_le h)]
      rfl

theorem skipIf_setUnseen (c : Bool) (s : State) :
    skipIf c (setUnseen b stack s) = setUnseen b stack (skipIf c s) := by
  cases c <;> rfl

theorem keyPoll_setUnseen (x : Reg) (s : State) :
    keyPoll x (setUnseen b stack s) = setUnseen b stack (keyPoll x s) := by
  cases h : s.lowestKey with
  | some k => rw [keyPoll_of_some h, keyPoll_of_some (s := setUnseen b stack s) h]; rfl
  | none => rw [keyPoll_of_none h, keyPoll_of_none (s := setUnseen b stack s) h]

theorem exec_ldVxK_setUnseen {x : Reg} {s t : State} (h : exec (.ldVxK x) s = .next t) :
    exec (.ldVxK x) (setUnseen b stack s) = .next (setUnseen b stack t) := by
  obtain ⟨k, hkey, rfl⟩ | ⟨hkey, rfl⟩ := exec_ldVxK_cases h
  · exact exec_ldVxK_of_some (s := setUnseen b stack s) hkey
  · exact exec_ldVxK_of_none (s := setUnseen b stack s) hkey

/-- An instruction other than the three that touch `ST` or the stack does not see either. -/
theorem exec_setUnseen {i : Instr} {s t : State} (h : exec i s = .next t) (hret : i ≠ .ret)
    (hcall : ∀ nnn, i ≠ .call nnn) (hST : ∀ x, i ≠ .ldSTVx x) :
    exec i (setUnseen b stack s) = .next (setUnseen b stack t) := by
  cases i with
  | ret => exact absurd rfl hret
  | call nnn => exact absurd rfl (hcall nnn)
  | ldSTVx x => exact absurd rfl (hST x)
  | seImm | sneImm | seReg | sneReg | skp | sknp =>
    cases h
    exact congrArg Host.Outcome.next (skipIf_setUnseen b stack _ s)
  | drw x y n =>
    cases h
    exact congrArg Host.Outcome.next (drawRows_setUnseen b stack _ _ _ (s.setFlag false))
  | ldBVx | ldMemVx =>
    cases h
    exact congrArg Host.Outcome.next (storeCells_setUnseen b stack _ s)
  | ldVxMem x =>
    cases h
    exact congrArg Host.Outcome.next (loadRegs_setUnseen b stack _ s)
  | ldVxK x => exact exec_ldVxK_setUnseen b stack h
  | _ => cases h; rfl

end Unseen

/-- Two states that differ only in `ST` and in stack entries at or above `SP`. -/
def DiffersUnseen (s u : State) : Prop :=
  ∃ b stack, (∀ k : Fin 16, k.val < s.sp.val → stack[k.val] = s.stack[k.val]) ∧ u = setUnseen b stack s

/-- A change that leaves the stack and `SP` leaves what is unseen. -/
theorem DiffersUnseen.of_onlyChanges {W : Element → Prop} {s t : State} (honly : OnlyChanges W s t) (hsp : ¬ W .sp)
    (hst : ∀ k, ¬ W (.stack k)) {b : Byte} {stack : Vector Word 16}
    (hstack : ∀ k : Fin 16, k.val < s.sp.val → stack[k.val] = s.stack[k.val]) :
    DiffersUnseen t (setUnseen b stack t) := by
  have hsp' : t.sp = s.sp := honly .sp hsp
  exact ⟨b, stack, fun k hk => (hstack k (hsp' ▸ hk)).trans (honly (.stack k) (hst k)).symm, rfl⟩

theorem DiffersUnseen.onlyChanges {s u : State} (h : DiffersUnseen s u) :
    OnlyChanges (fun e => e = .st ∨ ∃ k : Fin 16, s.sp.val ≤ k.val ∧ e = .stack k) s u := by
  obtain ⟨b, stack, hstack, rfl⟩ := h
  intro e he
  obtain ⟨hst, habove⟩ := not_or.mp he
  cases e with
  | st => exact absurd rfl hst
  | stack k => exact hstack k (Nat.lt_of_not_le fun hk => habove ⟨k, hk, rfl⟩)
  | rnd => exact ⟨rfl, rfl⟩
  | _ => rfl

section Instructions

variable {s t u : State} {b : Byte} {stack : Vector Word 16}
  (hstack : ∀ k : Fin 16, k.val < s.sp.val → stack[k.val] = s.stack[k.val])
include hstack

/-- A return reads an entry below `SP`, on which the two stacks agree. -/
theorem exec_ret_differsUnseen (ht : exec .ret s = .next t) (hu : exec .ret (setUnseen b stack s) = .next u) :
    DiffersUnseen t u := by
  obtain ⟨hempty, rfl⟩ | ⟨hne, hlt, rfl⟩ := exec_ret_cases ht
  · obtain ⟨_, rfl⟩ | ⟨hne', _⟩ := exec_ret_cases hu
    · exact ⟨b, stack, hstack, rfl⟩
    · exact absurd hempty hne'
  · obtain ⟨hempty', _⟩ | ⟨_, hlt', rfl⟩ := exec_ret_cases hu
    · exact absurd hempty' hne
    · have htop : stack[s.sp.val - 1] = s.stack[s.sp.val - 1] := hstack ⟨s.sp.val - 1, hlt⟩ (Nat.pred_lt hne)
      exact ⟨b, stack, fun k hk => hstack k (Nat.lt_of_lt_of_le hk (Nat.pred_le _)),
        State.ext_fields (fun _ => rfl) rfl htop rfl rfl rfl rfl rfl rfl rfl rfl rfl rfl rfl⟩

/-- A call puts the same `PC` at the same place of both stacks. -/
theorem exec_call_differsUnseen {nnn : Addr12} (ht : exec (.call nnn) s = .next t)
    (hu : exec (.call nnn) (setUnseen b stack s) = .next u) : DiffersUnseen t u := by
  obtain ⟨hlt, rfl⟩ | ⟨hfull, rfl⟩ := exec_call_cases ht
  · obtain ⟨hlt', rfl⟩ | ⟨hfull', _⟩ := exec_call_cases hu
    · refine ⟨b, stack.set s.sp.val s.pc hlt, fun k hk => ?_, rfl⟩
      have hk' : k.val < s.sp.val + 1 := hk
      rw [Vector.getElem_set, Vector.getElem_set]
      split
      · rfl
      · exact hstack k (by omega)
    · exact absurd hfull' (Nat.ne_of_lt hlt)
  · obtain ⟨hlt', _⟩ | ⟨_, rfl⟩ := exec_call_cases hu
    · exact absurd hfull (Nat.ne_of_lt hlt')
    · exact ⟨b, stack, hstack, rfl⟩

/-- An instruction in two states that differ in what is unseen. -/
theorem exec_differsUnseen {i : Instr} (ht : exec i s = .next t) (hu : exec i (setUnseen b stack s) = .next u) :
    DiffersUnseen t u := by
  by_cases hret : i = .ret
  · subst hret
    exact exec_ret_differsUnseen hstack ht hu
  by_cases hcall : ∃ nnn, i = .call nnn
  · obtain ⟨nnn, rfl⟩ := hcall
    exact exec_call_differsUnseen hstack ht hu
  by_cases hST : ∃ x, i = .ldSTVx x
  · obtain ⟨x, rfl⟩ := hST
    cases ht
    cases hu
    exact ⟨s.getV x, stack, hstack, rfl⟩
  · have hexec := exec_setUnseen b stack ht hret (fun nnn hi => hcall ⟨nnn, hi⟩) fun x hi => hST ⟨x, hi⟩
    cases hu.symm.trans hexec
    exact .of_onlyChanges (exec_onlyChanges ht) (fun hw => (writes_sp hw).elim hret hcall)
      (fun k hw => hcall (writes_stack hw)) hstack

end Instructions

theorem step_of_unknown {op : Word} {e : DecodeError} {s : State} (hs : s.mode = .running) (hfetch : fetch s = .ok op)
    (hdec : decodeWord op = .error e) : step s = .next (raise (.unknownOpcode op) (enterExec s)) := by
  simp only [step, hs, hfetch, hdec]

/-- Settles O21: the two STEPs take the same of the four courses, since none of the tests reads `ST` or the stack. -/
theorem unobservableStateStaysUnobservable : Obligations.UnobservableStateStaysUnobservable := by
  intro s t u b stack hstack ht hu
  refine DiffersUnseen.onlyChanges ?_
  have hu' : step (setUnseen b stack s) = .next u := hu
  obtain ⟨x, hs, rfl⟩ | ⟨hs, a, hfetch, rfl⟩ | ⟨hs, op, hfetch, hdec, rfl⟩ | ⟨hs, op, i, hfetch, hdec, hexec⟩ :=
    step_next_cases ht
  · have hpoll : keyPoll x (beginEvent (setUnseen b stack s)) = setUnseen b stack (keyPoll x (beginEvent s)) :=
      keyPoll_setUnseen b stack x (beginEvent s)
    cases hu'.symm.trans (step_of_waiting (s := setUnseen b stack s) hs)
    rw [hpoll]
    exact .of_onlyChanges (keyPoll_onlyChanges x s) (by simp) (by simp) hstack
  · cases hu'.symm.trans (step_of_failedFetch (s := setUnseen b stack s) hs hfetch)
    exact ⟨b, stack, hstack, rfl⟩
  · cases hu'.symm.trans (step_of_unknown (s := setUnseen b stack s) hs hfetch hdec)
    exact ⟨b, stack, hstack, rfl⟩
  · have hstep := step_of_decodeWord (s := setUnseen b stack s) hs hfetch hdec
    exact exec_differsUnseen (s := enterExec s) hstack hexec (hstep.symm.trans hu')

end Sys2Proof.Machine
end

section
/-! SUPPORT. The end of a run (R197, D27): the STEP at a jump to its own address. -/

namespace Sys2Proof.Machine

/-- What holds at a self jump: the word at `PC` is a jump to `PC`. -/
theorem atSelfJump_iff (s : State) : s.atSelfJump = true ↔ s.mode = .running ∧
    ∃ op nnn, fetch s = .ok op ∧ decodeWord op = .ok (.jp nnn) ∧ addrImm nnn = s.pc := by
  constructor
  · intro h
    unfold State.atSelfJump at h
    split at h
    next op hmode hfetch =>
      split at h
      next nnn hdec => exact ⟨hmode, op, nnn, hfetch, hdec, beq_iff_eq.mp h⟩
      next => cases h
    next => cases h
  · rintro ⟨hmode, op, nnn, hfetch, hdec, hpc⟩
    simp only [State.atSelfJump, hmode, hfetch, hdec, hpc, beq_self_eq_true]

/-- The STEP of a self jump changes nothing but `ERR`, which is `None` after it. -/
theorem step_of_atSelfJump {s : State} (h : s.atSelfJump = true) : step s = .next { s with err := .none } := by
  obtain ⟨hmode, op, nnn, hfetch, hdec, hpc⟩ := (atSelfJump_iff s).mp h
  rw [step_of_decodeWord hmode hfetch hdec]
  exact congrArg (fun w => Host.Outcome.next ((beginEvent s).setPc w)) hpc

theorem run_succ_of_atSelfJump {s : State} (h : s.atSelfJump = true) (n : Nat) :
    Host.Core.run core (n + 1) s = Host.Core.run core n { s with err := .none } := by
  have hstep : core.step s = .next { s with err := .none } := step_of_atSelfJump h
  simp only [Host.Core.run, hstep]

/-- Settles O31: the STEP of a self jump answers the same state, again at the self jump. -/
theorem selfJumpStaysForEver : Obligations.SelfJumpStaysForEver := by
  intro s n h
  induction n generalizing s with
  | zero => exact run_succ_of_atSelfJump h 0
  | succ n ih => exact (run_succ_of_atSelfJump h (n + 1)).trans (ih { s with err := .none } h)

end Sys2Proof.Machine
end
